-- ==== Sys2Proof/Word.lean ====
section
/-! DEFINITION. The widths of the block's values (00_scope.md R8, R9): all are unsigned, bit 0 the least significant. -/

namespace Sys2Proof

/-- The data unit and the buffer unit: 8 bits (R8). -/
abbrev Byte := BitVec 8

/-- The low sub-value of a data byte, `b[4:0]` (R81). -/
abbrev Low := BitVec 5

/-- The high sub-value of a data byte, `b[7:5]` (R81). -/
abbrev High := BitVec 3

/-- The 6-bit codeword `c6` (R13, R80). -/
abbrev Code6 := BitVec 6

/-- The 4-bit codeword `c4` (R13, R80). -/
abbrev Code4 := BitVec 4

/-- A 10-bit symbol, `c4 ++ c6` (R80). -/
abbrev Symbol := BitVec 10

/-- A 4-bit command code (R96, R97). -/
abbrev OpCode := BitVec 4

end Sys2Proof
end

