-- ==== Sys2Proof/Machine/Sparse.lean ====
section
/-! DEFINITION. Sparse data by key, as a list in one canonical form: keys strictly rising, no entry equal to what an
unlisted key holds. Memory and the file of contexts are both held so. -/

namespace Sys2Proof.Machine

/-- What key `i` holds; `d` where it is not listed. -/
def sparseGet {α : Type} (d : α) : List (Nat × α) → Nat → α
  | [], _ => d
  | e :: m, i => if i = e.1 then e.2 else sparseGet d m i

/-- List a key before the first greater one. -/
def sparseInsert {α : Type} (i : Nat) (v : α) : List (Nat × α) → List (Nat × α)
  | [] => [(i, v)]
  | e :: m => if i < e.1 then (i, v) :: e :: m else e :: sparseInsert i v m

/-- Make key `i` hold `v`; writing what an unlisted key holds removes the entry. -/
def sparseSet {α : Type} [DecidableEq α] (d : α) (m : List (Nat × α)) (i : Nat) (v : α) : List (Nat × α) :=
  let others := m.filter fun e => e.1 != i
  if v = d then others else sparseInsert i v others

/-- The canonical form. -/
abbrev SparseWf {α : Type} (d : α) (m : List (Nat × α)) : Prop :=
  m.Pairwise (fun e f => e.1 < f.1) ∧ ∀ e ∈ m, e.2 ≠ d

end Sys2Proof.Machine
end

