-- ==== Sys2Proof/Syntax.lean ====
section
/-! DEFINITION. The twelve commands (30_encoding.md R97), one constructor per row of the opcode table, and the form
of an input sequence. -/

namespace Sys2Proof

/-- The input sequence `IN` of a command (20_memory.md R51): bytes supplied with the command, or `len` bytes of the
environment's memory from address `base` on. DESIGN CHOICE, log 14: the spec's vectors write both forms
(`ENCODE c0, {0x4a}` and `DECODE d, A, 40`). -/
inductive Input where
  | bytes (bs : List Byte)
  | buffer (base len : Nat)
  deriving DecidableEq, Repr

/-- A command with its operands (R97, R101). A context reference is a natural (R34, log 19). The value operands of
ENC6, ENC4, DEC6 and DEC4 are untyped integers, so that a value out of range can be issued (R99 (a), D20, log 8);
`b` and `s` are typed to their width. -/
inductive Instr where
  /-- INIT ctx -/
  | init (ctx : Nat)
  /-- SETOUT ctx, buf, OUT_LEN -/
  | setout (ctx buf outLen : Nat)
  /-- ENCODE ctx, IN -/
  | encode (ctx : Nat) (input : Input)
  /-- DECODE ctx, IN, bitLength -/
  | decode (ctx : Nat) (input : Input) (bitLength : Nat)
  /-- ENC6 ctx, v -/
  | enc6 (ctx v : Nat)
  /-- ENC4 ctx, v -/
  | enc4 (ctx v : Nat)
  /-- DEC6 c -/
  | dec6 (c : Nat)
  /-- DEC4 c -/
  | dec4 (c : Nat)
  /-- ENCSYM ctx, b -/
  | encsym (ctx : Nat) (b : Byte)
  /-- PACK10 ctx, s -/
  | pack10 (ctx : Nat) (s : Symbol)
  /-- DECSYM s -/
  | decsym (s : Symbol)
  /-- UNPACK10 IN, k -/
  | unpack10 (input : Input) (k : Nat)
  deriving DecidableEq, Repr

end Sys2Proof
end

