-- ==== Sys2Proof/WellFormed.lean ====
section
/-! DEFINITION. When a command's operands have the widths of 30_encoding.md R97. A command that is not well formed is
still executed: it is the contract violation `ValueOutOfRange` of R99 (a). -/

namespace Sys2Proof

/-- The operand column of R97: `v` has 5 bits for ENC6 and 3 bits for ENC4, `c` has 6 bits for DEC6 and 4 bits for
DEC4. The other operands are naturals, sequences, or typed to their width. -/
def Instr.wellFormed : Instr → Bool
  | .init _ => true
  | .setout _ _ _ => true
  | .encode _ _ => true
  | .decode _ _ _ => true
  | .enc6 _ v => decide (v < 32)
  | .enc4 _ v => decide (v < 8)
  | .dec6 c => decide (c < 64)
  | .dec4 c => decide (c < 16)
  | .encsym _ _ => true
  | .pack10 _ _ => true
  | .decsym _ => true
  | .unpack10 _ _ => true

end Sys2Proof
end

