-- ==== Sys2Proof/Decode.lean ====
section
/-! DEFINITION. The command interface (30_encoding.md R96 to R98): how the environment presents a command, the decoder
and, after it, the encoder. -/

namespace Sys2Proof

/-- A command as the environment presents it: the 4-bit code and, beside it, one port for each operand the rows of
R97 name; there is no packed instruction word (R96). A port the command has no operand for is not read; left alone,
it is zero or empty. DESIGN CHOICE, log 7. -/
structure Command where
  op : OpCode
  ctx : Nat := 0
  buf : Nat := 0
  outLen : Nat := 0
  input : Input := .bytes []
  bitLength : Nat := 0
  /-- `v` of ENC6 and ENC4, `c` of DEC6 and DEC4. -/
  value : Nat := 0
  /-- `b` of ENCSYM. -/
  byte : Byte := 0
  /-- `s` of PACK10 and DECSYM. -/
  symbol : Symbol := 0
  /-- `k` of UNPACK10. -/
  index : Nat := 0
  deriving DecidableEq, Repr

/-- Why a command is no instruction. -/
inductive DecodeError where
  /-- A reserved code, `0b1100` to `0b1111` (R98). -/
  | reservedCode (op : OpCode)
  deriving DecidableEq, Repr

/-- The decoder, by the code column of R97. -/
def decode (c : Command) : Except DecodeError Instr :=
  match c.op with
  | 0b0000#4 => .ok (.init c.ctx)
  | 0b0001#4 => .ok (.setout c.ctx c.buf c.outLen)
  | 0b0010#4 => .ok (.encode c.ctx c.input)
  | 0b0011#4 => .ok (.decode c.ctx c.input c.bitLength)
  | 0b0100#4 => .ok (.enc6 c.ctx c.value)
  | 0b0101#4 => .ok (.enc4 c.ctx c.value)
  | 0b0110#4 => .ok (.dec6 c.value)
  | 0b0111#4 => .ok (.dec4 c.value)
  | 0b1000#4 => .ok (.encsym c.ctx c.byte)
  | 0b1001#4 => .ok (.pack10 c.ctx c.symbol)
  | 0b1010#4 => .ok (.decsym c.symbol)
  | 0b1011#4 => .ok (.unpack10 c.input c.index)
  | op => .error (.reservedCode op)

/-- The encoder, by the same column: the code, the operands in their ports, every other port zero or empty. -/
def encode : Instr → Command
  | .init n => { op := 0b0000#4, ctx := n }
  | .setout n buf len => { op := 0b0001#4, ctx := n, buf := buf, outLen := len }
  | .encode n inp => { op := 0b0010#4, ctx := n, input := inp }
  | .decode n inp len => { op := 0b0011#4, ctx := n, input := inp, bitLength := len }
  | .enc6 n v => { op := 0b0100#4, ctx := n, value := v }
  | .enc4 n v => { op := 0b0101#4, ctx := n, value := v }
  | .dec6 c => { op := 0b0110#4, value := c }
  | .dec4 c => { op := 0b0111#4, value := c }
  | .encsym n b => { op := 0b1000#4, ctx := n, byte := b }
  | .pack10 n s => { op := 0b1001#4, ctx := n, symbol := s }
  | .decsym s => { op := 0b1010#4, symbol := s }
  | .unpack10 inp k => { op := 0b1011#4, input := inp, index := k }

/-- The ports of a command, by name. -/
inductive Port where
  | ctx | buf | outLen | input | bitLength | value | byte | symbol | index
  deriving DecidableEq, Repr

/-- Every port. -/
def Port.all : List Port := [.ctx, .buf, .outLen, .input, .bitLength, .value, .byte, .symbol, .index]

/-- The operand column of R97: the ports a code reads. A reserved code has no row. -/
def operandPorts (op : OpCode) : List Port :=
  match op with
  | 0b0000#4 => [.ctx]
  | 0b0001#4 => [.ctx, .buf, .outLen]
  | 0b0010#4 => [.ctx, .input]
  | 0b0011#4 => [.ctx, .input, .bitLength]
  | 0b0100#4 => [.ctx, .value]
  | 0b0101#4 => [.ctx, .value]
  | 0b0110#4 => [.value]
  | 0b0111#4 => [.value]
  | 0b1000#4 => [.ctx, .byte]
  | 0b1001#4 => [.ctx, .symbol]
  | 0b1010#4 => [.symbol]
  | 0b1011#4 => [.input, .index]
  | _ => []

/-- A port carries nothing: it is zero or empty. -/
def Command.blank (c : Command) : Port → Bool
  | .ctx => c.ctx == 0
  | .buf => c.buf == 0
  | .outLen => c.outLen == 0
  | .input => c.input == .bytes []
  | .bitLength => c.bitLength == 0
  | .value => c.value == 0
  | .byte => c.byte == 0
  | .symbol => c.symbol == 0
  | .index => c.index == 0

/-- A command that carries nothing in the ports the row of its code does not name. -/
def Command.canonical (c : Command) : Bool :=
  Port.all.all fun p => (operandPorts c.op).contains p || c.blank p

/-- The command of a row of the opcode table: its low 4 bits are the code, its operands are all zero or empty. -/
def commandOfWord (nbits w : Nat) : Command :=
  { op := BitVec.ofNat 4 (w % 2 ^ nbits) }

/-- The instruction the decoder reads from a row of the opcode table. -/
def decodeTableWord (nbits w : Nat) : Option Instr :=
  match decode (commandOfWord nbits w) with
  | .ok i => some i
  | .error _ => none

end Sys2Proof
end

