-- ==== Sys2Proof/Machine/Context.lean ====
section
/-! DEFINITION. The coding context (10_state.md R20 to R25): the block's only registers, and their values when a context
is created and after INIT (R35). -/

namespace Sys2Proof.Machine

/-- `ctx.RD` (R21): the running disparity. -/
inductive Disparity where
  | negative
  | positive
  deriving DecidableEq, Repr

/-- `ctx.LIFE` (R25): the lifecycle mark. -/
inductive Life where
  | uninit
  | ready
  deriving DecidableEq, Repr

/-- `ctx.OUTSEL` (R22): no buffer, or the array of `len` bytes whose first byte is at address `buf` (log 5). -/
inductive OutSel where
  | unbound
  | bound (buf len : Nat)
  deriving DecidableEq, Repr

/-- A coding context `ctx` (R20). `bytePos` is an unbounded natural (R23, D15, log 16), `bitOff` three bits (R24). -/
structure Context where
  life : Life
  rd : Disparity
  outSel : OutSel
  bytePos : Nat
  bitOff : BitVec 3
  deriving DecidableEq, Repr

/-- A context as the environment creates it: `Uninit`. The spec gives its other fields no value (R35); DESIGN CHOICE,
log 2: they are held at the values of `Context.afterInit`, and no command but INIT goes on from them. -/
def Context.created : Context :=
  { life := .uninit, rd := .negative, outSel := .unbound, bytePos := 0, bitOff := 0 }

/-- A context after INIT (R35, 44_context_ops.md R190). -/
def Context.afterInit : Context :=
  { life := .ready, rd := .negative, outSel := .unbound, bytePos := 0, bitOff := 0 }

end Sys2Proof.Machine
end

