-- ==== Sys2Proof/Config.lean ====
section
/-! DEFINITION. The parameters the spec leaves to the implementation (00_scope.md R8): the four code tables
`TABLES` and the order `SUBSYM_ORDER`. They are data, carried by State and written by no step, so that a statement
about every state is a statement about every choice of them. The spec's default values are in Machine/Tables.lean. -/

namespace Sys2Proof

/-- An entry of an encode table (30_encoding.md R83); `code` is what is emitted where the entry does not invert. -/
structure EncEntry (w : Nat) where
  code : BitVec w
  invertOnNegative : Bool
  togglesDisparity : Bool
  deriving DecidableEq, Repr

/-- The four tables with the sizes R85 gives them. A decode entry is a value or `Invalid` (R84): an option. -/
structure Tables where
  enc6 : Vector (EncEntry 6) 32
  enc4 : Vector (EncEntry 4) 8
  dec6 : Vector (Option Low) 64
  dec4 : Vector (Option High) 16
  deriving DecidableEq, Repr

/-- `SUBSYM_ORDER` (R8, 41_stream_packer.md R141): which sub-symbol encoder runs first inside one symbol. -/
inductive SubsymOrder where
  /-- The 6-bit encoder runs first. -/
  | lowFirst
  /-- The 4-bit encoder runs first. -/
  | highFirst
  deriving DecidableEq, Repr

/-- `DEC4_A7` (30_encoding.md R92): what the two alternate codewords of value 7 decode to. -/
inductive Dec4A7 where
  | invalid
  | value7
  deriving DecidableEq, Repr

/-- The parameters of one implementation (R8). The remaining rows of R8 are fixed widths, operands of commands, or
`POS_BITS`, which is unbounded here (D15). -/
structure Config where
  order : SubsymOrder
  tables : Tables
  deriving DecidableEq, Repr

end Sys2Proof
end

