-- ==== Sys2Proof/Machine/Tables.lean ====
section
/-! DEFINITION. The default tables the spec gives (30_encoding.md R89 to R92, from general knowledge of the standard
8b/10b code: D2, D3, log 3) and the default parameters (R8, D1, log 4). -/

namespace Sys2Proof.Machine

/-- Default `ENC6TAB` (R89): code, invertOnNegative, togglesDisparity, by value. -/
def defaultEnc6 : Vector (EncEntry 6) 32 := #v[
  ⟨0x06, true, true⟩, ⟨0x11, true, true⟩, ⟨0x12, true, true⟩, ⟨0x23, false, false⟩,
  ⟨0x14, true, true⟩, ⟨0x25, false, false⟩, ⟨0x26, false, false⟩, ⟨0x38, true, false⟩,
  ⟨0x18, true, true⟩, ⟨0x29, false, false⟩, ⟨0x2a, false, false⟩, ⟨0x0b, false, false⟩,
  ⟨0x2c, false, false⟩, ⟨0x0d, false, false⟩, ⟨0x0e, false, false⟩, ⟨0x05, true, true⟩,
  ⟨0x09, true, true⟩, ⟨0x31, false, false⟩, ⟨0x32, false, false⟩, ⟨0x13, false, false⟩,
  ⟨0x34, false, false⟩, ⟨0x15, false, false⟩, ⟨0x16, false, false⟩, ⟨0x28, true, true⟩,
  ⟨0x0c, true, true⟩, ⟨0x19, false, false⟩, ⟨0x1a, false, false⟩, ⟨0x24, true, true⟩,
  ⟨0x1c, false, false⟩, ⟨0x22, true, true⟩, ⟨0x21, true, true⟩, ⟨0x0a, true, true⟩]

/-- Default `ENC4TAB` (R90). -/
def defaultEnc4 : Vector (EncEntry 4) 8 := #v[
  ⟨0x2, true, true⟩, ⟨0x9, false, false⟩, ⟨0xa, false, false⟩, ⟨0xc, true, false⟩,
  ⟨0x4, true, true⟩, ⟨0x5, false, false⟩, ⟨0x6, false, false⟩, ⟨0x8, true, true⟩]

/-- Default `DEC6TAB` (R91), eight entries a row from index 0x00. -/
def defaultDec6 : Vector (Option Low) 64 := #v[
  none, none, none, none, none, some 15, some 0, some 7,
  none, some 16, some 31, some 11, some 24, some 13, some 14, none,
  none, some 1, some 2, some 19, some 4, some 21, some 22, some 23,
  some 8, some 25, some 26, some 27, some 28, some 29, some 30, none,
  none, some 30, some 29, some 3, some 27, some 5, some 6, some 8,
  some 23, some 9, some 10, some 4, some 12, some 2, some 1, none,
  none, some 17, some 18, some 24, some 20, some 31, some 16, none,
  some 7, some 0, some 15, none, none, none, none, none]

/-- The value of the alternate codewords of 7, `0x1` and `0xe` (R92). -/
def Dec4A7.entry : Dec4A7 → Option High
  | .invalid => none
  | .value7 => some 7

/-- `DEC4TAB` (R92); the default takes `DEC4_A7 = Invalid`. -/
def defaultDec4 (a7 : Dec4A7) : Vector (Option High) 16 := #v[
  none, Dec4A7.entry a7, some 0, some 3, some 4, some 5, some 6, some 7,
  some 7, some 1, some 2, some 4, some 3, some 0, Dec4A7.entry a7, none]

/-- `TABLES` by the standard code, with the sub-parameter `DEC4_A7`. -/
def standardTables (a7 : Dec4A7) : Tables :=
  { enc6 := defaultEnc6, enc4 := defaultEnc4, dec6 := defaultDec6, dec4 := defaultDec4 a7 }

/-- The parameters by default: `LowFirst` (R141, D1), the tables of R89 to R92 with `DEC4_A7 = Invalid`. -/
def defaultConfig : Config :=
  { order := .lowFirst, tables := standardTables .invalid }

end Sys2Proof.Machine
end

