-- ==== Sys2Proof/Machine/State.lean ====
section
/-! DEFINITION. The machine's state, the ways a step can stop, and the state after reset. -/

namespace Sys2Proof.Machine

/-- The result a command returns to the environment (00_scope.md R12, 30_encoding.md R97). -/
inductive Reply where
  /-- INIT, SETOUT, ENCODE, PACK10. -/
  | done
  /-- DECODE: every symbol decoded. -/
  | ok
  /-- DECODE: a symbol with no reverse mapping (R202); no payload (R203). -/
  | codeViolation
  /-- ENC6. -/
  | code6 (c : Code6)
  /-- ENC4. -/
  | code4 (c : Code4)
  /-- ENCSYM and UNPACK10. -/
  | symbol (s : Symbol)
  /-- DEC6: `Value v` or `Invalid`. -/
  | low (v : Option Low)
  /-- DEC4: `Value v` or `Invalid`. -/
  | high (v : Option High)
  /-- DECSYM: `Value b` or `Invalid`. -/
  | byte (b : Option Byte)
  deriving DecidableEq, Repr

/-- What the environment asks next (logs 7, 12, 15). -/
inductive Request where
  /-- A command and the commands issued at once with it (none, where the environment keeps to 10_state.md R34). -/
  | issue (first : Command) (also : List Command)
  /-- The environment stores bytes from an address on, between commands (20_memory.md R62). -/
  | store (addr : Nat) (bs : List Byte)
  deriving DecidableEq, Repr

/-- The environment's bytes, sparse and in the canonical form of `SparseWf` (log 5). -/
abbrev Memory := List Host.Cell

/-- The file of contexts, sparse and in the same form: any natural names a context (10_state.md R34, log 19). -/
abbrev Contexts := List (Nat × Context)

/-- Everything the spec gives the machine. -/
structure State where
  /-- The contexts (R20). -/
  ctxs : Contexts
  /-- `OUT`, `IN` and every other byte the environment owns (R32, R33). -/
  mem : Memory
  /-- `TAB` (R31) and `SUBSYM_ORDER` (R141): constant. -/
  config : Config
  /-- Requests of the environment not yet served, oldest first: the model's own field. -/
  pending : List Request
  /-- What the last command returned: the environment's, read by no command (R27); the model's own field. -/
  reply : Option Reply
  deriving DecidableEq, Repr

/-- The kinds of contract violation (60_exceptions.md R201). -/
inductive ContractViolation where
  /-- A command with a `ctx` operand, other than INIT, on a context on which INIT has not run (R25). -/
  | notInitialized
  /-- PACK10, ENCODE or DECODE about to write with no buffer bound (R60). -/
  | noOutput
  /-- PACK10, ENCODE or DECODE about to write past the bound buffer (R60). -/
  | outputOverrun
  /-- DECODE or UNPACK10 with fewer input bytes than the bits asked for (R61, R179). -/
  | inputTooShort
  /-- DECODE with a `bitLength` that is no multiple of 10 (R185). -/
  | bitLengthNotMultipleOf10
  /-- ENC6, ENC4, DEC6 or DEC4 with an operand wider than its field (R99 (a)). -/
  | valueOutOfRange
  deriving DecidableEq, Repr

/-- How the machine stops with a fault. -/
inductive Fault where
  /-- A broken precondition, found by the command the kind names (R205). `left` is what stands at that moment: all
  state untouched, or, in the middle of ENCODE or DECODE, the symbols already processed in place (R60, R209). Safe: the
  spec itself maps it to the fault outcome (D13). -/
  | contractViolation (kind : ContractViolation) (left : State)
  /-- PACK10 or ENCODE about to pack at an odd bit offset, which no run reaches (R36) and R142 leaves undefined. Safe.
  Log 9. -/
  | oddBitOffset (left : State)
  deriving DecidableEq, Repr

/-- Why a situation has no meaning. -/
inductive Refusal where
  /-- An arm of `exec` without a meaning; none is left. Safe. -/
  | notModelled (mnemonic : String)
  /-- A reserved command code, alone or among the commands issued at once (R98, R212). Safe. -/
  | reservedCommandCode (op : OpCode)
  /-- ENCODE or DECODE on context `ctx` whose `IN` overlaps the bound `OUT`, alone or among the commands issued at once
  (R63, R212). Safe. -/
  | inputOverlapsOutput (ctx : Nat)
  /-- Two of the commands issued at once, both on context `ctx` (R34, R212). Safe. -/
  | concurrentCommands (ctx : Nat)
  /-- Two of the commands issued at once, on two contexts with overlapping buffers, or one of them without a context
  and over what the other writes (R62, R63, R212). Safe. Log 12. -/
  | overlappingBuffers
  deriving DecidableEq, Repr

/-- The machine right after reset. The only reset is INIT, and a reset input has the effect of INIT on every context
the machine holds (70_reset_and_hazards.md R230, D8): context 0 is as INIT leaves it, every other is created when it is
first named (DEDUCED, log 1). Memory lists nothing, the parameters are the spec's defaults (logs 3, 4, 6). -/
def State.reset : State :=
  { ctxs := [(0, Context.afterInit)]
    mem := []
    config := defaultConfig
    pending := []
    reply := none }

end Sys2Proof.Machine
end

