-- ==== Sys2Proof/Machine/Ops.lean ====
section
/-! DEFINITION. The named operations over contexts and memory, and the ways a command ends (60_exceptions.md). -/

namespace Sys2Proof.Machine

/-- How a command ends. -/
abbrev Result := Host.Outcome State Fault Refusal

/-! ### Memory -/

/-- What a byte nothing has written reads as: 0. DESIGN CHOICE, log 6: the spec leaves the contents to the environment
(10_state.md R35). -/
def Memory.blank : Byte := 0

/-- Memory is in its canonical form. -/
abbrev Memory.wf (m : Memory) : Prop := SparseWf Memory.blank m

/-- `MemRead(a, 1)` (R10): no side effect (20_memory.md R62). -/
def State.read (s : State) (a : Nat) : Byte := sparseGet Memory.blank s.mem a

/-- `MemWrite(a, 1, b)` (R10). -/
def State.write (s : State) (a : Nat) (b : Byte) : State :=
  { s with mem := sparseSet Memory.blank s.mem a b }

/-- `MemWrite(a, 1, MemRead(a, 1) | b)`: the packer's read-modify-write (20_memory.md R57). -/
def State.orByte (s : State) (a : Nat) (b : Byte) : State := s.write a (s.read a ||| b)

/-- The `len` bytes from address `a` on, in ascending order. -/
def State.readBytes (s : State) (a len : Nat) : List Byte := (List.range len).map fun i => s.read (a + i)

/-- Store bytes from address `a` on, in ascending order. -/
def State.writeBytes (s : State) : Nat → List Byte → State
  | _, [] => s
  | a, b :: bs => (s.write a b).writeBytes (a + 1) bs

/-! ### Contexts -/

/-- The file of contexts is in its canonical form. -/
abbrev Contexts.wf (m : Contexts) : Prop := SparseWf Context.created m

/-- The context a reference names; one never named before is created (log 19). -/
def State.ctx (s : State) (n : Nat) : Context := sparseGet Context.created s.ctxs n

/-- Write a context. -/
def State.setCtx (s : State) (n : Nat) (c : Context) : State :=
  { s with ctxs := sparseSet Context.created s.ctxs n c }

/-! ### The other fields -/

/-- The requests left to serve. -/
def State.withPending (s : State) (rest : List Request) : State := { s with pending := rest }

/-- Give the environment a result (10_state.md R27: it is stored in no context). -/
def State.withReply (s : State) (r : Reply) : State := { s with reply := some r }

/-- `return v` (R10): the command ends normally with that result. -/
def State.answer (s : State) (r : Reply) : Result := .next (s.withReply r)

/-! ### Exceptions -/

/-- `raise CodeViolation` (R10, 60_exceptions.md R209): the command returns to the environment with that result; every
write already made stands, nothing is saved and no mode changes. There is no return operation (R210): the next command
finds the context as usable as before. -/
def endWithCodeViolation (s : State) : Result := s.answer .codeViolation

/-- `raise ContractViolation(kind)` (R10, R205): the command stops as a fault that leaves `s`. -/
def raise (kind : ContractViolation) (s : State) : Result := .fault (.contractViolation kind s)

/-- The first check of every command with a `ctx` operand but INIT (R25, R208): `NotInitialized` on a context INIT has
not run on, leaving all state untouched. -/
def whenReady (n : Nat) (s : State) (run : Context → Result) : Result :=
  if (s.ctx n).life = .uninit then raise .notInitialized s else run (s.ctx n)

end Sys2Proof.Machine
end

