-- ==== Sys2Proof/Machine/ContextOps.lean ====
section
/-! DEFINITION. INIT and SETOUT (44_context_ops.md). -/

namespace Sys2Proof.Machine

/-- INIT (R190): legal in every state; touches no buffer. -/
def execInit (n : Nat) (s : State) : Result := (s.setCtx n Context.afterInit).answer .done

/-- SETOUT (R191): binds the buffer and puts the cursor at its first byte (D7); the disparity is kept (R192). -/
def execSetout (n buf len : Nat) (s : State) : Result :=
  whenReady n s fun c =>
    (s.setCtx n { c with outSel := .bound buf len, bytePos := 0, bitOff := 0 }).answer .done

end Sys2Proof.Machine
end

