-- ==== Sys2Proof/Machine/Operands.lean ====
section
/-! DEFINITION. Operand forms: the fields of a data byte and of a symbol (30_encoding.md R80 to R82), table reads (R85),
input sequences and their regions (20_memory.md R50 to R53, R63). -/

namespace Sys2Proof.Machine

/-! ### Bytes and symbols -/

/-- `low = b & 0x1f` (R81). -/
def lowOf (b : Byte) : Low := b.extractLsb' 0 5

/-- `high = (b >> 5) & 7` (R81). -/
def highOf (b : Byte) : High := b.extractLsb' 5 3

/-- `(hi << 5) | lo` (R82). -/
def joinByte (hi : High) (lo : Low) : Byte := hi ++ lo

/-- `c6 = s[5:0]` (R82). -/
def code6Of (s : Symbol) : Code6 := s.extractLsb' 0 6

/-- `c4 = s[9:6]` (R82). -/
def code4Of (s : Symbol) : Code4 := s.extractLsb' 6 4

/-- `(c4 << 6) | c6` (R80). -/
def joinSymbol (c4 : Code4) (c6 : Code6) : Symbol := c4 ++ c6

end Sys2Proof.Machine

namespace Sys2Proof

/-! ### Tables: every index of the right width is inside its table (R85) -/

/-- `ENC6TAB[v]`. -/
def Tables.enc6At (t : Tables) (v : Low) : EncEntry 6 := t.enc6[v.toNat]'v.isLt

/-- `ENC4TAB[v]`. -/
def Tables.enc4At (t : Tables) (v : High) : EncEntry 4 := t.enc4[v.toNat]'v.isLt

/-- `DEC6TAB[c]`. -/
def Tables.dec6At (t : Tables) (c : Code6) : Option Low := t.dec6[c.toNat]'c.isLt

/-- `DEC4TAB[c]`. -/
def Tables.dec4At (t : Tables) (c : Code4) : Option High := t.dec4[c.toNat]'c.isLt

end Sys2Proof

namespace Sys2Proof.Machine

/-! ### Input sequences -/

/-- The bytes of `IN`. A region is read when the command starts: it does not overlap what the command writes, or the
command is refused (R63), so each byte is what it is when the command comes to it (log 14). -/
def State.inputBytes (s : State) : Input → List Byte
  | .bytes bs => bs
  | .buffer base len => s.readBytes base len

/-- `MemRead(IN + i, 1)` for `i < IN_LEN`; the checks of R61 and R179 keep every index below `IN_LEN`. -/
def inputByte (bs : List Byte) (i : Nat) : Byte := bs.getD i 0

/-- Stream bit `n` of a sequence of bytes: bit `n mod 8` of byte `n div 8` (R53). -/
def streamBit (bs : List Byte) (n : Nat) : Bool := (inputByte bs (n / 8)).getLsbD (n % 8)

/-- Stream bit `n` of the buffer whose first byte is at `base` (R53). -/
def State.streamBit (s : State) (base n : Nat) : Bool := (s.read (base + n / 8)).getLsbD (n % 8)

/-! ### Regions -/

/-- A run of `len` bytes of memory from `base` on. -/
structure Region where
  base : Nat
  len : Nat
  deriving DecidableEq, Repr

/-- An address lies in a region. -/
def Region.has (r : Region) (a : Nat) : Bool := decide (r.base ≤ a ∧ a < r.base + r.len)

/-- Two regions share a byte. -/
def Region.overlaps (r q : Region) : Bool :=
  decide (max r.base q.base < min (r.base + r.len) (q.base + q.len))

/-- The memory an input sequence stands in; bytes supplied with the command stand in none. -/
def inputRegion : Input → Option Region
  | .bytes _ => none
  | .buffer base len => some { base := base, len := len }

/-- The memory a binding names. -/
def OutSel.region : OutSel → Option Region
  | .unbound => none
  | .bound buf len => some { base := buf, len := len }

/-- Two pieces of memory, where there are both, share a byte. -/
def regionsOverlap : Option Region → Option Region → Bool
  | some r, some q => r.overlaps q
  | _, _ => false

/-- `IN` overlaps `OUT` (R63, D21, log 13). -/
def inputOverlaps (inp : Input) (out : OutSel) : Bool := regionsOverlap (inputRegion inp) out.region

end Sys2Proof.Machine
end

