-- ==== Sys2Proof/Machine/Decoder.lean ====
section
/-! DEFINITION. The sub-symbol decoders DEC6 and DEC4 and the symbol decoder DECSYM (42_subsymbol_decoder.md). No
disparity is consulted (R163), and no state but the result is written (R164). -/

namespace Sys2Proof.Machine

/-- DEC6 (R160). -/
def execDec6 (c : Nat) (s : State) : Result :=
  if c > 63 then raise .valueOutOfRange s
  else s.answer (.low (s.config.tables.dec6At (BitVec.ofNat 6 c)))

/-- DEC4 (R161). -/
def execDec4 (c : Nat) (s : State) : Result :=
  if c > 15 then raise .valueOutOfRange s
  else s.answer (.high (s.config.tables.dec4At (BitVec.ofNat 4 c)))

/-- One symbol to one byte, or `Invalid` where either codeword is (R162). -/
def decodeSymbol (t : Tables) (sym : Symbol) : Option Byte :=
  match t.dec6At (code6Of sym), t.dec4At (code4Of sym) with
  | some lo, some hi => some (joinByte hi lo)
  | _, _ => none

/-- DECSYM (R162). -/
def execDecsym (sym : Symbol) (s : State) : Result := s.answer (.byte (decodeSymbol s.config.tables sym))

end Sys2Proof.Machine
end

