-- ==== Sys2Proof/Machine/Flags.lean ====
section
/-! DEFINITION. The running disparity, the block's only flag (10_state.md R27, 40_subsymbol_encoder.md R120, R121). -/

namespace Sys2Proof.Machine

/-- The other disparity. -/
def Disparity.flip : Disparity → Disparity
  | .negative => .positive
  | .positive => .negative

/-- `rd ^ togglesDisparity` (R121, with Negative = 0 and Positive = 1, D4). -/
def Disparity.toggle (rd : Disparity) (toggles : Bool) : Disparity := if toggles then rd.flip else rd

/-- The codeword of `SubEnc` (R121): the complement, masked to width, where the disparity is Negative and the entry
inverts. -/
def subOut {w : Nat} (e : EncEntry w) (rd : Disparity) : BitVec w :=
  if rd = .negative ∧ e.invertOnNegative = true then ~~~e.code else e.code

/-- `SubEnc` on a table entry (R121): the codeword, by the disparity before the toggle, and the next disparity. -/
def subEnc {w : Nat} (e : EncEntry w) (rd : Disparity) : BitVec w × Disparity :=
  (subOut e rd, rd.toggle e.togglesDisparity)

/-- One byte to one symbol and the next disparity (41_stream_packer.md R140), the sub-symbol encoders run in
`SUBSYM_ORDER`; the second sees the disparity the first has left. -/
def encodeSymbol (cfg : Config) (rd : Disparity) (b : Byte) : Symbol × Disparity :=
  let e6 := cfg.tables.enc6At (lowOf b)
  let e4 := cfg.tables.enc4At (highOf b)
  match cfg.order with
  | .lowFirst =>
    let r6 := subEnc e6 rd
    let r4 := subEnc e4 r6.2
    (joinSymbol r4.1 r6.1, r4.2)
  | .highFirst =>
    let r4 := subEnc e4 rd
    let r6 := subEnc e6 r4.2
    (joinSymbol r4.1 r6.1, r6.2)

/-- Write a context's disparity. -/
def State.setRd (s : State) (n : Nat) (rd : Disparity) : State := s.setCtx n { s.ctx n with rd := rd }

end Sys2Proof.Machine
end

