-- ==== Sys2Proof/Machine/Encoder.lean ====
section
/-! DEFINITION. The sub-symbol encoders ENC6 and ENC4 (40_subsymbol_encoder.md) and the symbol encoder ENCSYM
(41_stream_packer.md R140). -/

namespace Sys2Proof.Machine

/-- ENC6 (R122). -/
def execEnc6 (n v : Nat) (s : State) : Result :=
  whenReady n s fun c =>
    if v > 31 then raise .valueOutOfRange s
    else
      let r := subEnc (s.config.tables.enc6At (BitVec.ofNat 5 v)) c.rd
      (s.setRd n r.2).answer (.code6 r.1)

/-- ENC4 (R123). -/
def execEnc4 (n v : Nat) (s : State) : Result :=
  whenReady n s fun c =>
    if v > 7 then raise .valueOutOfRange s
    else
      let r := subEnc (s.config.tables.enc4At (BitVec.ofNat 3 v)) c.rd
      (s.setRd n r.2).answer (.code4 r.1)

/-- ENCSYM (R140). -/
def execEncsym (n : Nat) (b : Byte) (s : State) : Result :=
  whenReady n s fun c =>
    let r := encodeSymbol s.config c.rd b
    (s.setRd n r.2).answer (.symbol r.1)

end Sys2Proof.Machine
end

