-- ==== Sys2Proof/Machine/Packer.lean ====
section
/-! DEFINITION. The stream packer PACK10 and the encode operation ENCODE (41_stream_packer.md R142 to R150). -/

namespace Sys2Proof.Machine

/-- `(s << o) & 0xff` (R142): the low `8 - o` bits of the symbol, placed at bit `o`. -/
def packFirst (sym : Symbol) (o : BitVec 3) : Byte := (sym <<< o.toNat).setWidth 8

/-- `s >> (8 - o)` (R142): the remaining `2 + o` bits, placed at bit 0; they are at most 8, since `o <= 6`. -/
def packSecond (sym : Symbol) (o : BitVec 3) : Byte := (sym >>> (8 - o.toNat)).setWidth 8

/-- `(o + 10) mod 8` (R143). -/
def nextBitOff (o : BitVec 3) : BitVec 3 := BitVec.ofNat 3 (o.toNat + 10)

/-- The byte position after a symbol (R143): one more, and another where the new offset is 0 (C2). -/
def nextBytePos (p : Nat) (o : BitVec 3) : Nat := p + 1 + if nextBitOff o = 0 then 1 else 0

/-- A context whose cursor has passed one symbol (R143). -/
def Context.pastSymbol (c : Context) : Context :=
  { c with bytePos := nextBytePos c.bytePos c.bitOff, bitOff := nextBitOff c.bitOff }

/-- The checks made before a symbol's first write (20_memory.md R60, R208): the address of the bound buffer, or
`NoOutput`, then `OutputOverrun`; each leaves `s`. An odd offset is a fault of the model's own (log 9). -/
def packRoom (n : Nat) (s : State) : Except Fault Nat :=
  match (s.ctx n).outSel with
  | .unbound => .error (.contractViolation .noOutput s)
  | .bound buf len =>
    if (s.ctx n).bytePos + 1 ≥ len then .error (.contractViolation .outputOverrun s)
    else if (s.ctx n).bitOff.getLsbD 0 = true then .error (.oddBitOffset s)
    else .ok buf

/-- Two read-modify-writes, in this order (R57), then the cursor's advance. -/
def appendSymbol (n buf : Nat) (sym : Symbol) (s : State) : State :=
  let c := s.ctx n
  let a := buf + c.bytePos
  ((s.orByte a (packFirst sym c.bitOff)).orByte (a + 1) (packSecond sym c.bitOff)).setCtx n c.pastSymbol

/-- PACK10 (R142). -/
def execPack10 (n : Nat) (sym : Symbol) (s : State) : Result :=
  whenReady n s fun _ =>
    match packRoom n s with
    | .error f => .fault f
    | .ok buf => (appendSymbol n buf sym s).answer .done

/-- One byte of ENCODE (R144): the packer's checks, before the byte changes the disparity; then ENCSYM, then PACK10. -/
def encodeByte (n : Nat) (b : Byte) (s : State) : Except Fault State :=
  match packRoom n s with
  | .error f => .error f
  | .ok buf =>
    let r := encodeSymbol s.config (s.ctx n).rd b
    .ok (appendSymbol n buf r.1 (s.setRd n r.2))

/-- ENCODE's loop over its bytes, in ascending order (R144); bytes before a fault stay encoded. -/
def encodeBytes (n : Nat) : List Byte → State → Except Fault State
  | [], s => .ok s
  | b :: bs, s =>
    match encodeByte n b s with
    | .error f => .error f
    | .ok s' => encodeBytes n bs s'

/-- ENCODE (R144), refused where `IN` overlaps `OUT` (R63). -/
def execEncode (n : Nat) (inp : Input) (s : State) : Result :=
  whenReady n s fun c =>
    if inputOverlaps inp c.outSel = true then .refused (.inputOverlapsOutput n)
    else
      match encodeBytes n (s.inputBytes inp) s with
      | .error f => .fault f
      | .ok s' => s'.answer .done

end Sys2Proof.Machine
end

