-- ==== Sys2Proof/Machine/Unpacker.lean ====
section
/-! DEFINITION. The stream unpacker UNPACK10 and the decode operation DECODE (43_stream_unpacker.md). -/

namespace Sys2Proof.Machine

/-- The `k`-th symbol of a sequence (R179), by its closed form: `((IN[q] | (IN[q+1] << 8)) >> r) & 0x3ff`. -/
def unpackSymbol (bs : List Byte) (k : Nat) : Symbol :=
  let q := 10 * k / 8
  let r := 10 * k % 8
  let pair : BitVec 16 := inputByte bs (q + 1) ++ inputByte bs q
  (pair >>> r).setWidth 10

/-- UNPACK10 (R179). -/
def execUnpack10 (inp : Input) (k : Nat) (s : State) : Result :=
  let bs := s.inputBytes inp
  if 10 * k + 10 > 8 * bs.length then raise .inputTooShort s
  else s.answer (.symbol (unpackSymbol bs k))

/-- What a DECODE holds for its own duration only (10_state.md R29, R186): the accumulator, its number of valid bits,
the bits turned into symbols so far, and the index of the next input byte. -/
structure DecodeLocal where
  acc : BitVec 16
  filled : Nat
  consumed : Nat
  idx : Nat
  deriving DecidableEq, Repr

/-- All four are 0 at the start of every DECODE (R171). -/
def DecodeLocal.start : DecodeLocal := { acc := 0, filled := 0, consumed := 0, idx := 0 }

/-- One turn of the fill loop (R173): while `filled < 10`, OR the next input byte in at `filled`. -/
def DecodeLocal.fillOnce (bs : List Byte) (l : DecodeLocal) : DecodeLocal :=
  if l.filled < 10 then
    { l with
      acc := l.acc ||| ((inputByte bs l.idx).setWidth 16 <<< l.filled)
      idx := l.idx + 1
      filled := l.filled + 8 }
  else l

/-- Step 1 (R173): two turns bring `filled` to at least 10 from any value, and a turn past that does nothing. -/
def DecodeLocal.fill (bs : List Byte) (l : DecodeLocal) : DecodeLocal := (l.fillOnce bs).fillOnce bs

/-- Step 2 (R174): the symbol in the low ten bits; the bits above belong to later symbols. -/
def DecodeLocal.front (l : DecodeLocal) : Symbol := l.acc.setWidth 10

/-- The local part of step 4 (R176): the symbol's bits are consumed. -/
def DecodeLocal.consume (l : DecodeLocal) : DecodeLocal :=
  { l with acc := l.acc >>> 10, filled := l.filled - 10, consumed := l.consumed + 10 }

/-- The store of step 4 (R176, 20_memory.md R58, R60): `NoOutput`, then `OutputOverrun`, else a whole byte is written
at the byte position, which advances by 1. The bit offset is neither read nor written (R182). -/
def storeDecoded (n : Nat) (b : Byte) (s : State) : Except Fault State :=
  match (s.ctx n).outSel with
  | .unbound => .error (.contractViolation .noOutput s)
  | .bound buf len =>
    if (s.ctx n).bytePos ≥ len then .error (.contractViolation .outputOverrun s)
    else .ok ((s.write (buf + (s.ctx n).bytePos) b).setCtx n { s.ctx n with bytePos := (s.ctx n).bytePos + 1 })

/-- The loop of DECODE (R170, R172) for the symbols still to come: fill, extract, look up, then store or leave with
`CodeViolation` (R175); the validity test comes before the output checks (R208). -/
def decodeLoop (n : Nat) (bs : List Byte) : Nat → DecodeLocal → State → Result
  | 0, _, s => s.answer .ok
  | k + 1, l, s =>
    let l := l.fill bs
    match decodeSymbol s.config.tables l.front with
    | none => endWithCodeViolation s
    | some b =>
      match storeDecoded n b s with
      | .error f => .fault f
      | .ok s' => decodeLoop n bs k l.consume s'

/-- DECODE (R170, R208): the preconditions in their order, then `bitLength / 10` turns of the loop (R172). Refused where
`IN` overlaps `OUT` (R63). -/
def execDecode (n : Nat) (inp : Input) (bitLength : Nat) (s : State) : Result :=
  whenReady n s fun c =>
    if inputOverlaps inp c.outSel = true then .refused (.inputOverlapsOutput n)
    else if bitLength % 10 ≠ 0 then raise .bitLengthNotMultipleOf10 s
    else if bitLength > 8 * (s.inputBytes inp).length then raise .inputTooShort s
    else decodeLoop n (s.inputBytes inp) (bitLength / 10) .start s

end Sys2Proof.Machine
end

