-- ==== Sys2Proof/Machine/Dispatch.lean ====
section
/-! DEFINITION. One arm per command. -/

namespace Sys2Proof.Machine

def exec (i : Instr) (s : State) : Host.Outcome State Fault Refusal :=
  match i with
  | .init n => Sys2Proof.Machine.execInit n s
  | .setout n buf len => Sys2Proof.Machine.execSetout n buf len s
  | .encode n inp => Sys2Proof.Machine.execEncode n inp s
  | .decode n inp len => Sys2Proof.Machine.execDecode n inp len s
  | .enc6 n v => Sys2Proof.Machine.execEnc6 n v s
  | .enc4 n v => Sys2Proof.Machine.execEnc4 n v s
  | .dec6 c => Sys2Proof.Machine.execDec6 c s
  | .dec4 c => Sys2Proof.Machine.execDec4 c s
  | .encsym n b => Sys2Proof.Machine.execEncsym n b s
  | .pack10 n sym => Sys2Proof.Machine.execPack10 n sym s
  | .decsym sym => Sys2Proof.Machine.execDecsym sym s
  | .unpack10 inp k => Sys2Proof.Machine.execUnpack10 inp k s

end Sys2Proof.Machine
end

