-- ==== Sys2Proof/Machine/Issue.lean ====
section
/-! DEFINITION. How the environment's requests reach the core: the next request, the commands issued at once (60_exceptions.md
R212, log 12), and what is refused before a command runs. -/

namespace Sys2Proof.Machine

/-- The context a command names (10_state.md R20, R38); DEC6, DEC4, DECSYM and UNPACK10 name none. -/
def contextOf : Instr → Option Nat
  | .init n | .setout n _ _ | .encode n _ | .decode n _ _ | .enc6 n _ | .enc4 n _ | .encsym n _ | .pack10 n _ => some n
  | .dec6 _ | .dec4 _ | .decsym _ | .unpack10 _ _ => none

/-- The memory a command may write: the buffer bound to its context, for the commands of the OUT column of R38. -/
def writesOf (s : State) : Instr → Option Region
  | .encode n _ | .decode n _ _ | .pack10 n _ => (s.ctx n).outSel.region
  | .init _ | .setout _ _ _ | .enc6 _ _ | .enc4 _ _ | .encsym _ _ | .dec6 _ | .dec4 _ | .decsym _ | .unpack10 _ _ => none

/-- The memory a command's input stands in, for the commands of the IN column of R38. -/
def inputsOf : Instr → Option Region
  | .encode _ inp | .decode _ inp _ | .unpack10 inp _ => inputRegion inp
  | .init _ | .setout _ _ _ | .enc6 _ _ | .enc4 _ _ | .encsym _ _ | .dec6 _ | .dec4 _ | .decsym _ | .pack10 _ _ => none

/-- The buffer a command binds (R191). -/
def bindsOf : Instr → Option Region
  | .setout _ buf len => some { base := buf, len := len }
  | .init _ | .encode _ _ | .decode _ _ _ | .enc6 _ _ | .enc4 _ _ | .encsym _ _ | .pack10 _ _ | .dec6 _ | .dec4 _
  | .decsym _ | .unpack10 _ _ => none

/-- The buffer bound to the context a command names, whether or not the command writes it. -/
def boundOf (s : State) (i : Instr) : Option Region := (contextOf i).bind fun n => (s.ctx n).outSel.region

/-- The buffers of the context a command drives, while it drives it: the one bound to the context, the one the command
binds, and its input (20_memory.md R50, R51). -/
def buffersOf (s : State) (i : Instr) : List Region :=
  (boundOf s i).toList ++ (bindsOf i).toList ++ (inputsOf i).toList

/-- The buffers of two contexts driven at once overlap (R63, 70_reset_and_hazards.md R239). -/
def buffersOverlap (s : State) (i j : Instr) : Bool :=
  (buffersOf s i).any fun r => (buffersOf s j).any r.overlaps

/-- What one command may write shares a byte with what the other may write or reads (R62). -/
def accessesOverlap (s : State) (i j : Instr) : Bool :=
  regionsOverlap (writesOf s i) (writesOf s j) || regionsOverlap (writesOf s i) (inputsOf j) ||
    regionsOverlap (inputsOf i) (writesOf s j)

/-- Why two commands issued at once have no meaning, if they have none (R34, R63, R212): they name one context, or two
contexts with overlapping buffers. A command that names no context drives none; it must only keep out of what the other
writes (log 12). -/
def clash (s : State) (i j : Instr) : Option Refusal :=
  match contextOf i, contextOf j with
  | some n, some m =>
    if n = m then some (.concurrentCommands n)
    else if buffersOverlap s i j = true then some .overlappingBuffers else none
  | _, _ => if accessesOverlap s i j = true then some .overlappingBuffers else none

/-- The first clash between two members of a list of commands. -/
def firstClash (s : State) : List Instr → Option Refusal
  | [] => none
  | i :: is => (is.findSome? (clash s i)).or (firstClash s is)

/-- Why a command has no meaning by itself: its input overlaps the bound output (R63, R212), found after the lifecycle
check (log 13). It is what the command itself answers when its turn comes. -/
def ownRefusal (s : State) : Instr → Option Refusal
  | .encode n inp | .decode n inp _ =>
    if (s.ctx n).life = .ready ∧ inputOverlaps inp (s.ctx n).outSel = true then some (.inputOverlapsOutput n) else none
  | .init _ | .setout _ _ _ | .enc6 _ _ | .enc4 _ _ | .encsym _ _ | .pack10 _ _ | .dec6 _ | .dec4 _ | .decsym _
  | .unpack10 _ _ => none

/-- Why the command `i` and those issued at once with it have no meaning, if they have none: two of them clash, or one
of the others has no meaning by itself; what `i` itself comes to is the command's own answer. -/
def issueRefusal (s : State) (i : Instr) (also : List Instr) : Option Refusal :=
  (firstClash s (i :: also)).or (also.findSome? (ownRefusal s))

/-- The commands of a list, if none has a reserved code; otherwise the first such. -/
def decodeAll : List Command → Except DecodeError (List Instr)
  | [] => .ok []
  | c :: cs =>
    match decode c with
    | .error e => .error e
    | .ok i =>
      match decodeAll cs with
      | .error e => .error e
      | .ok is => .ok (i :: is)

/-- Put the commands still to be served of those issued at once before the later requests. -/
def requeue : List Command → List Request → List Request
  | [], rest => rest
  | c :: cs, rest => .issue c cs :: rest

/-- What the next request comes to. -/
inductive Fetched where
  /-- Nothing is pending. -/
  | idle
  /-- The environment has stored bytes. -/
  | stored (s : State)
  /-- A command to execute, with the state it finds: the request is taken off the list. -/
  | run (i : Instr) (s : State)
  /-- No meaning (R212). -/
  | refuse (r : Refusal)

/-- Take the next request (10_state.md R26: commands are executed in the order the environment issues them). Of
commands issued at once all are looked at before the first runs: where one has no meaning, or two have none together,
there is no step (R212). -/
def fetch (s : State) : Fetched :=
  match s.pending with
  | [] => .idle
  | .store a bs :: rest => .stored ((s.withPending rest).writeBytes a bs)
  | .issue c also :: rest =>
    match decode c, decodeAll also with
    | .error (.reservedCode op), _ | .ok _, .error (.reservedCode op) => .refuse (.reservedCommandCode op)
    | .ok i, .ok js =>
      match issueRefusal s i js with
      | some r => .refuse r
      | none => .run i (s.withPending (requeue also rest))

end Sys2Proof.Machine
end

