-- ==== Sys2Proof/Machine/Step.lean ====
section
/-! DEFINITION. One step of the machine: one request of the environment. -/

namespace Sys2Proof.Machine

/-- One step: the next request is served whole (00_scope.md R7: one command is one atomic step). With none pending the
core waits (70_reset_and_hazards.md R231, log 17). -/
def step (s : State) : Host.Outcome State Fault Refusal :=
  match fetch s with
  | .idle => .next s
  | .stored t => .next t
  | .run i t => exec i t
  | .refuse r => .refused r

/-- `s` with a command of the opcode table issued, alone, as the next request: the block has no stored program, so a
program comes to run by being issued (10_state.md R26, log 7). -/
def State.withFetchWord (s : State) (nbits w : Nat) : State :=
  s.withPending (.issue (commandOfWord nbits w) [] :: s.pending)

end Sys2Proof.Machine
end

