-- ==== Sys2Proof/Machine/Binding.lean ====
section
/-! DEFINITION. The boundary to the binding layer (60_exceptions.md R204), which is outside the core (00_scope.md
R5 (c)): its length check as the source quotes it. No step uses it: the core's own check (R61) is in DECODE. -/

namespace Sys2Proof.Machine

/-- The binding layer raises `Truncated` (R204): `bufferLength < bitLength / 8`, the division truncating. -/
def bindingTruncates (bufferLength bitLength : Nat) : Bool := decide (bufferLength < bitLength / 8)

end Sys2Proof.Machine
end

