-- ==== Sys2Proof/Machine/Results.lean ====
section
/-! DEFINITION. The numbers of 60_exceptions.md R201, where numbers are wanted (D16); no step uses them. -/

namespace Sys2Proof.Machine

/-- The code of a result: 0 for every normal one, 1 for `CodeViolation`. Code 2, `Truncated`, is the binding layer's. -/
def Reply.code : Reply → Nat
  | .codeViolation => 1
  | .done | .ok | .code6 _ | .code4 _ | .symbol _ | .low _ | .high _ | .byte _ => 0

/-- The code of a contract violation, 16 to 21. -/
def ContractViolation.code : ContractViolation → Nat
  | .notInitialized => 16
  | .noOutput => 17
  | .outputOverrun => 18
  | .inputTooShort => 19
  | .bitLengthNotMultipleOf10 => 20
  | .valueOutOfRange => 21

end Sys2Proof.Machine
end

