-- ==== Sys2Proof/Safety.lean ====
section
/-! DEFINITION. What counts as a safe state and a safe run, and the words the statements use: the invariant, the
constraints on the tables, frames, and the closed forms of the two stream operations. -/

namespace Sys2Proof.Machine

/-! ### Invariant -/

/-- What every context of a run meets: a created context holds nothing (10_state.md R25, R35), the bit offset is even
(R36), the cursor is at (0, 0) while no buffer is bound and stays inside the bound buffer or just past it (R23, R28). -/
structure Context.Ok (c : Context) : Prop where
  created : c.life = .uninit → c = Context.created
  even : c.bitOff.getLsbD 0 = false
  unbound : c.outSel = .unbound → c.bytePos = 0 ∧ c.bitOff = 0
  inside : ∀ buf len, c.outSel = .bound buf len → c.bytePos ≤ len

/-- The invariant of the machine: memory and the file of contexts are in their canonical forms, every context is `Ok`. -/
structure State.Inv (s : State) : Prop where
  mem : Memory.wf s.mem
  ctxs : Contexts.wf s.ctxs
  ctx : ∀ n, (s.ctx n).Ok

/-! ### Safe runs -/

/-- The state a fault leaves (60_exceptions.md R205, R209). -/
def Fault.left : Fault → State
  | .contractViolation _ t => t
  | .oddBitOffset t => t

/-- A command ends normally or with a fault, and `t` is what stands then. -/
def Leaves (i : Instr) (s t : State) : Prop :=
  exec i s = .next t ∨ ∃ f, exec i s = .fault f ∧ f.left = t

/-- A run of `k` steps without a fault or a refusal: the premise "no contract violation occurred" of R205. -/
def SafeRun (k : Nat) (s : State) : Prop := ∃ t, Host.Core.run Sys2Proof.core k s = .next t

/-- The contract violations each command may end in (R206). -/
def violationsOf : Instr → List ContractViolation
  | .init _ => []
  | .setout _ _ _ => [.notInitialized]
  | .enc6 _ _ => [.notInitialized, .valueOutOfRange]
  | .enc4 _ _ => [.notInitialized, .valueOutOfRange]
  | .encsym _ _ => [.notInitialized]
  | .pack10 _ _ => [.notInitialized, .noOutput, .outputOverrun]
  | .encode _ _ => [.notInitialized, .noOutput, .outputOverrun]
  | .dec6 _ => [.valueOutOfRange]
  | .dec4 _ => [.valueOutOfRange]
  | .decsym _ => []
  | .unpack10 _ _ => [.inputTooShort]
  | .decode _ _ _ => [.notInitialized, .bitLengthNotMultipleOf10, .inputTooShort, .noOutput, .outputOverrun]

/-- `r` is a buffer of the context command `i` drives, while it drives it: bound to the context, bound by the command, or
the input of the command (20_memory.md R50, R51, R63; log 12). -/
def UsesBuffer (s : State) (i : Instr) (r : Region) : Prop :=
  (∃ n, contextOf i = some n ∧ (s.ctx n).outSel.region = some r) ∨
    (∃ n buf len, i = .setout n buf len ∧ r = { base := buf, len := len }) ∨ inputsOf i = some r

/-! ### Frames -/

/-- Nothing but context `n` and the reply differs: every other context, every byte of memory, the tables and the
requests are as before. -/
structure OnlyContext (n : Nat) (s t : State) : Prop where
  others : ∀ m, m ≠ n → t.ctx m = s.ctx m
  bytes : ∀ a, t.read a = s.read a
  config : t.config = s.config
  pending : t.pending = s.pending

/-- Nothing but the reply differs. -/
structure OnlyReply (s t : State) : Prop where
  contexts : ∀ m, t.ctx m = s.ctx m
  bytes : ∀ a, t.read a = s.read a
  config : t.config = s.config
  pending : t.pending = s.pending

/-- Nothing but context `n`, the reply and the bytes at the addresses `stored` names differs. -/
structure OnlyContextAndBytes (n : Nat) (stored : Nat → Prop) (s t : State) : Prop where
  others : ∀ m, m ≠ n → t.ctx m = s.ctx m
  bytes : ∀ a, ¬ stored a → t.read a = s.read a
  config : t.config = s.config
  pending : t.pending = s.pending

/-! ### Constraints on the parameters (30_encoding.md R88) -/

/-- R88 item 6: every codeword the encoders emit decodes to its value. -/
structure Tables.RoundTrip (t : Tables) : Prop where
  low : ∀ (v : Low) (rd : Disparity), t.dec6At (subOut (t.enc6At v) rd) = some v
  high : ∀ (v : High) (rd : Disparity), t.dec4At (subOut (t.enc4At v) rd) = some v

/-- R88 items 1 to 7; item 8 holds of every table by its type, item 9 names the standard code without printing it. -/
structure Config.Conforms (c : Config) : Prop where
  zero6 : c.tables.enc6At 0 = ⟨0x06, true, true⟩
  zero4 : c.tables.enc4At 0 = ⟨0x2, true, true⟩
  seven : (c.tables.enc6At 7).togglesDisparity = false ∧ (c.tables.enc6At 7).invertOnNegative = true
  twentyThree : (c.tables.enc6At 23).togglesDisparity = true
  first4a : (encodeSymbol c .negative 0x4a).1 = 0x2aa
  second4a : (encodeSymbol c (encodeSymbol c .negative 0x4a).2 0x4a).1 = 0x2aa
  decoded6 : c.tables.dec6At 0x35 = some 31 ∧ c.tables.dec6At 0x0a = some 31 ∧ c.tables.dec6At 0x06 = some 0 ∧
    c.tables.dec6At 0x2a = some 10 ∧ c.tables.dec6At 0x15 = some 21
  decoded4 : c.tables.dec4At 0x8 = some 7 ∧ c.tables.dec4At 0x7 = some 7 ∧ c.tables.dec4At 0xd = some 0 ∧
    c.tables.dec4At 0x5 = some 5 ∧ c.tables.dec4At 0xa = some 2
  roundTrip : Tables.RoundTrip c.tables
  someInvalid : (∃ i, c.tables.dec6At i = none) ∨ ∃ i, c.tables.dec4At i = none

/-! ### Closed forms -/

/-- The symbols ENCSYM gives for a sequence of bytes, threaded through the disparity (41_stream_packer.md R147). -/
def encodeSymbols (cfg : Config) : Disparity → List Byte → List Symbol
  | _, [] => []
  | rd, b :: bs => (encodeSymbol cfg rd b).1 :: encodeSymbols cfg (encodeSymbol cfg rd b).2 bs

/-- The disparity after them. -/
def encodeDisparity (cfg : Config) : Disparity → List Byte → Disparity
  | rd, [] => rd
  | rd, b :: bs => encodeDisparity cfg (encodeSymbol cfg rd b).2 bs

/-- The cursor as a stream bit number of the bound buffer (20_memory.md R53). -/
def Context.cursorBit (c : Context) : Nat := 8 * c.bytePos + c.bitOff.toNat

/-- The first `m` symbols of an input sequence (43_stream_unpacker.md R179). -/
def unpackSymbols (bs : List Byte) (m : Nat) : List Symbol := (List.range m).map (unpackSymbol bs)

/-- The bytes of the symbols before the first invalid one (R179, R183). -/
def decodedBytes (t : Tables) : List Symbol → List Byte
  | [] => []
  | sym :: syms =>
    match decodeSymbol t sym with
    | none => []
    | some b => b :: decodedBytes t syms

/-- Ones less zeros of a codeword (40_subsymbol_encoder.md R126). -/
def excess {w : Nat} (c : BitVec w) : Int := 2 * ((List.range w).countP fun i => c.getLsbD i) - w

end Sys2Proof.Machine
end

