-- ==== Sys2Proof/Certificates/Slice0/Obligations.lean ====
section
/-! DEFINITION. The statements about the model, from the numbered rules of the spec. -/

open Sys2Proof Sys2Proof.Machine

/-! ### The command interface -/

/-- R97: each of the twelve codes, with its operands beside it, is the command of its row. -/
def Obligations.CodesSelectTheirCommands : Prop :=
  (∀ n, decode { op := 0b0000#4, ctx := n } = .ok (.init n)) ∧
  (∀ n buf len, decode { op := 0b0001#4, ctx := n, buf := buf, outLen := len } = .ok (.setout n buf len)) ∧
  (∀ n inp, decode { op := 0b0010#4, ctx := n, input := inp } = .ok (.encode n inp)) ∧
  (∀ n inp l, decode { op := 0b0011#4, ctx := n, input := inp, bitLength := l } = .ok (.decode n inp l)) ∧
  (∀ n v, decode { op := 0b0100#4, ctx := n, value := v } = .ok (.enc6 n v)) ∧
  (∀ n v, decode { op := 0b0101#4, ctx := n, value := v } = .ok (.enc4 n v)) ∧
  (∀ c, decode { op := 0b0110#4, value := c } = .ok (.dec6 c)) ∧
  (∀ c, decode { op := 0b0111#4, value := c } = .ok (.dec4 c)) ∧
  (∀ n b, decode { op := 0b1000#4, ctx := n, byte := b } = .ok (.encsym n b)) ∧
  (∀ n s, decode { op := 0b1001#4, ctx := n, symbol := s } = .ok (.pack10 n s)) ∧
  (∀ s, decode { op := 0b1010#4, symbol := s } = .ok (.decsym s)) ∧
  (∀ inp k, decode { op := 0b1011#4, input := inp, index := k } = .ok (.unpack10 inp k))

/-- R96, R97: decoding an encoded command gives it back with every operand; an encoded command carries nothing in the
ports its row of R97 does not name; and a command that carries nothing there is the encoding of what it decodes to. The
ports are the model's form (log 7). -/
def Obligations.DecodeEncodeAgree : Prop :=
  (∀ i : Instr, decode (encode i) = .ok i ∧ (encode i).canonical = true) ∧
  (∀ (c : Command) (i : Instr), c.canonical = true → decode c = .ok i → encode i = c)

/-- R98: a reserved code is refused in every state, by its own number, wherever it stands among the commands issued at
once; and by itself: no other code is. That the whole request is refused with it is the model's form (log 12). -/
def Obligations.ReservedCodesRefused : Prop :=
  (∀ (s : State) (c d : Command) (also ds es : List Command) (rest : List Request),
    s.pending = .issue c also :: rest → c :: also = ds ++ d :: es → (∀ e ∈ ds, e.op.toNat < 12) → 12 ≤ d.op.toNat →
    step s = .refused (.reservedCommandCode d.op)) ∧
  (∀ c : Command, c.op.toNat < 12 → ∃ i, decode c = .ok i)

/-- R7, R26: a step with a command issued alone is `exec` of what it decodes to, the request taken off the list, which is
the model's own (log 7). -/
def Obligations.StepRunsTheIssuedCommand : Prop :=
  ∀ (s : State) (c : Command) (rest : List Request) (i : Instr),
    s.pending = .issue c [] :: rest → decode c = .ok i → step s = exec i { s with pending := rest }

/-- With nothing pending a step changes nothing (log 17); a store of the environment writes its bytes and nothing else
(log 15); of commands issued at once of which no two clash and none of the others has an input that overlaps its own
output, the first runs and the others stay at the head (log 12). -/
def Obligations.StepServesTheOtherRequests : Prop :=
  (∀ s : State, s.pending = [] → step s = .next s) ∧
  (∀ (s : State) (a : Nat) (bs : List Byte) (rest : List Request), s.pending = .store a bs :: rest →
    ∃ t, step s = .next t ∧ t.pending = rest ∧ t.config = s.config ∧ t.reply = s.reply ∧ (∀ n, t.ctx n = s.ctx n) ∧
      ∀ x, t.read x = if a ≤ x ∧ x < a + bs.length then bs.getD (x - a) 0 else s.read x) ∧
  (∀ (s : State) (c d : Command) (ds : List Command) (rest : List Request) (i : Instr) (js : List Instr),
    s.pending = .issue c (d :: ds) :: rest → decodeAll (c :: d :: ds) = .ok (i :: js) →
    (i :: js).Pairwise (fun a b => clash s a b = none) →
    (∀ n inp, (.encode n inp ∈ js ∨ ∃ l, .decode n inp l ∈ js) → inputOverlaps inp (s.ctx n).outSel = false) →
      step s = exec i { s with pending := .issue d ds :: rest })

/-- R34, R63, R212: of commands issued at once any two, wherever they stand, make the request one without a step where
both name one context, or where they name two contexts of which the buffers share a byte, be they written or not; and so
do two of which at most one names a context, where what one may write shares a byte with what the other may write or
reads. Where the two are all there is, the refusal says which it was. That the bound buffer, the buffer SETOUT binds and
the input are the buffers of a context in use, and that a command without a context must keep out of what the other
may write, is the model's reading (log 12). -/
def Obligations.ClashingCommandsRefused : Prop :=
  ∀ (s : State) (c d e : Command) (also cs ds es : List Command) (rest : List Request) (i j : Instr),
    s.pending = .issue c also :: rest → c :: also = cs ++ d :: (ds ++ e :: es) → decode d = .ok i → decode e = .ok j →
    (∀ n, contextOf i = some n → contextOf j = some n →
      ∃ r, step s = .refused r ∧ (also = [e] → r = .concurrentCommands n)) ∧
    (∀ (n m : Nat) (r q : Region) (a : Nat), contextOf i = some n → contextOf j = some m → n ≠ m →
      UsesBuffer s i r → UsesBuffer s j q → r.has a = true → q.has a = true →
      ∃ f, step s = .refused f ∧ (also = [e] → f = .overlappingBuffers)) ∧
    (∀ (r q : Region) (a : Nat), contextOf i = none ∨ contextOf j = none →
      (writesOf s i = some r ∧ writesOf s j = some q) ∨ (writesOf s i = some r ∧ inputsOf j = some q) ∨
        (inputsOf i = some r ∧ writesOf s j = some q) →
      r.has a = true → q.has a = true →
      ∃ f, step s = .refused f ∧ (also = [e] → f = .overlappingBuffers))

/-! ### Context operations -/

/-- R190: INIT is legal in every state and leaves its context at the start state; it touches no buffer. -/
def Obligations.InitGivesTheStartState : Prop :=
  ∀ (n : Nat) (s : State), ∃ t, exec (.init n) s = .next t ∧ t.reply = some .done ∧
    t.ctx n = { life := .ready, rd := .negative, outSel := .unbound, bytePos := 0, bitOff := 0 } ∧ OnlyContext n s t

/-- R191, R192: SETOUT binds the buffer and puts the cursor at (0, 0); the disparity is kept and no buffer is
touched. -/
def Obligations.SetoutBindsAndRewinds : Prop :=
  ∀ (n buf len : Nat) (s : State), (s.ctx n).life = .ready →
    ∃ t, exec (.setout n buf len) s = .next t ∧ t.reply = some .done ∧
      t.ctx n = { life := .ready, rd := (s.ctx n).rd, outSel := .bound buf len, bytePos := 0, bitOff := 0 } ∧
      OnlyContext n s t

/-- R25, R208: on a context INIT has not run on, every command that names it but INIT is `NotInitialized`, before any
other condition and with all state untouched. -/
def Obligations.UninitContextFaults : Prop :=
  ∀ (i : Instr) (n : Nat) (s : State), contextOf i = some n → i ≠ .init n → (s.ctx n).life = .uninit →
    exec i s = .fault (.contractViolation .notInitialized s)

/-! ### Sub-symbol encoders -/

/-- R122, R121: ENC6 returns the codeword of the entry, complemented where the disparity before is Negative and the
entry inverts, and flips the disparity where the entry toggles; nothing else changes. -/
def Obligations.Enc6ReturnsCodeword : Prop :=
  ∀ (n v : Nat) (s : State) (h : v < 32), (s.ctx n).life = .ready →
    ∃ t, exec (.enc6 n v) s = .next t ∧
      t.reply = some (.code6 (if (s.ctx n).rd = .negative ∧ (s.config.tables.enc6[v]).invertOnNegative = true
        then BitVec.ofNat 6 (63 - (s.config.tables.enc6[v]).code.toNat) else (s.config.tables.enc6[v]).code)) ∧
      t.ctx n = { s.ctx n with
        rd := if (s.config.tables.enc6[v]).togglesDisparity = true then (s.ctx n).rd.flip else (s.ctx n).rd } ∧
      OnlyContext n s t

/-- R123, R121: ENC4, likewise. -/
def Obligations.Enc4ReturnsCodeword : Prop :=
  ∀ (n v : Nat) (s : State) (h : v < 8), (s.ctx n).life = .ready →
    ∃ t, exec (.enc4 n v) s = .next t ∧
      t.reply = some (.code4 (if (s.ctx n).rd = .negative ∧ (s.config.tables.enc4[v]).invertOnNegative = true
        then BitVec.ofNat 4 (15 - (s.config.tables.enc4[v]).code.toNat) else (s.config.tables.enc4[v]).code)) ∧
      t.ctx n = { s.ctx n with
        rd := if (s.config.tables.enc4[v]).togglesDisparity = true then (s.ctx n).rd.flip else (s.ctx n).rd } ∧
      OnlyContext n s t

/-- R99 (a): a sub-symbol value or a codeword out of range is `ValueOutOfRange`, with all state untouched, exactly
where the command is not well formed. Untyped operands are the model's choice between the rule's two forms (log 8). -/
def Obligations.ValuesOutOfRangeFault : Prop :=
  ∀ (i : Instr) (s : State), i.wellFormed = false → (∀ n, contextOf i = some n → (s.ctx n).life = .ready) →
    exec i s = .fault (.contractViolation .valueOutOfRange s)

/-- R125, R88: at Negative, whatever conforming tables, ENC6 of 0 twice gives 0x39 and then 0x06, and leaves the disparity
where it was; ENC4 of 0 twice gives 0xd and then 0x2; ENC6 of 7, 23 and 7 inverts the disparity at 23, and the two
codewords of 7 differ. With the default parameters these are 0x07, 0x17 and 0x38: values of the spec's default tables
(log 3), not of the source. -/
def Obligations.FreshContextLiterals : Prop :=
  ∀ (n : Nat) (s : State), Config.Conforms s.config → (s.ctx n).life = .ready → (s.ctx n).rd = .negative →
    (∃ t u, exec (.enc6 n 0) s = .next t ∧ t.reply = some (.code6 0x39) ∧ exec (.enc6 n 0) t = .next u ∧
      u.reply = some (.code6 0x06) ∧ (u.ctx n).rd = .negative) ∧
    (∃ t u, exec (.enc4 n 0) s = .next t ∧ t.reply = some (.code4 0xd) ∧ exec (.enc4 n 0) t = .next u ∧
      u.reply = some (.code4 0x2) ∧ (u.ctx n).rd = .negative) ∧
    (∃ t u v x y z, exec (.enc6 n 7) s = .next t ∧ t.reply = some (.code6 x) ∧ (t.ctx n).rd = .negative ∧
      exec (.enc6 n 23) t = .next u ∧ u.reply = some (.code6 y) ∧ (u.ctx n).rd = .positive ∧
      exec (.enc6 n 7) u = .next v ∧ v.reply = some (.code6 z) ∧ x ≠ z ∧
      (s.config = defaultConfig → x = 0x07 ∧ y = 0x17 ∧ z = 0x38))

/-- R126 (e): with the default tables the excess of ones over zeros of a codeword, added to 0 at Negative and 2 at
Positive, is again 0 or 2 by the disparity after it. The tables are the spec's own defaults (log 3). -/
def Obligations.DisparityTracksExcess : Prop :=
  ∀ (a7 : Dec4A7) (rd : Disparity),
    (∀ v : Low, excess (subEnc ((standardTables a7).enc6At v) rd).1 + (if rd = .positive then 2 else 0) =
      if (subEnc ((standardTables a7).enc6At v) rd).2 = .positive then 2 else 0) ∧
    (∀ v : High, excess (subEnc ((standardTables a7).enc4At v) rd).1 + (if rd = .positive then 2 else 0) =
      if (subEnc ((standardTables a7).enc4At v) rd).2 = .positive then 2 else 0)

/-! ### Symbol encoder -/

/-- R140: ENCSYM is the two sub-symbol encoders run one after the other on the context, in `SUBSYM_ORDER`, and its
symbol is the 4-bit codeword above the 6-bit one; nothing but the disparity changes. -/
def Obligations.EncsymRunsBothEncoders : Prop :=
  ∀ (n : Nat) (b : Byte) (s : State), (s.ctx n).life = .ready →
    ∃ (t u v : State) (c6 : Code6) (c4 : Code4), exec (.encsym n b) s = .next v ∧
      v.reply = some (.symbol (BitVec.ofNat 10 (c4.toNat * 64 + c6.toNat))) ∧
      ((s.config.order = .lowFirst ∧ exec (.enc6 n (b.toNat % 32)) s = .next t ∧ t.reply = some (.code6 c6) ∧
          exec (.enc4 n (b.toNat / 32)) t = .next u ∧ u.reply = some (.code4 c4)) ∨
        (s.config.order = .highFirst ∧ exec (.enc4 n (b.toNat / 32)) s = .next t ∧ t.reply = some (.code4 c4) ∧
          exec (.enc6 n (b.toNat % 32)) t = .next u ∧ u.reply = some (.code6 c6))) ∧
      v.ctx n = u.ctx n ∧ v.ctx n = { s.ctx n with rd := (v.ctx n).rd } ∧ OnlyContext n s v

/-- R140: the disparity flips exactly when one of the two entries toggles and the other does not, under either order. -/
def Obligations.SymbolFlipsOnOneToggle : Prop :=
  ∀ (cfg : Config) (rd : Disparity) (b : Byte),
    ((encodeSymbol cfg rd b).2 = rd.flip ↔
      (cfg.tables.enc6At (lowOf b)).togglesDisparity ≠ (cfg.tables.enc4At (highOf b)).togglesDisparity) ∧
    ((encodeSymbol cfg rd b).2 = rd ∨ (encodeSymbol cfg rd b).2 = rd.flip)

/-- R141: a codeword differs between the two orders exactly when the other entry toggles and its own inverts, and is
then the complement. -/
def Obligations.OrderMattersWhenOneTogglesOtherInverts : Prop :=
  ∀ (t : Tables) (rd : Disparity) (b : Byte),
    let lo := (encodeSymbol { order := .lowFirst, tables := t } rd b).1
    let hi := (encodeSymbol { order := .highFirst, tables := t } rd b).1
    let e6 := t.enc6At (lowOf b)
    let e4 := t.enc4At (highOf b)
    code6Of hi = (if e4.togglesDisparity = true ∧ e6.invertOnNegative = true then ~~~code6Of lo else code6Of lo) ∧
    code4Of hi = (if e6.togglesDisparity = true ∧ e4.invertOnNegative = true then ~~~code4Of lo else code4Of lo)

/-! ### Stream packer -/

/-- R142, R143: PACK10 ORs the low `8 - o` bits of the symbol into the byte at the cursor, at bit `o`, and the rest into
the next byte, and advances the cursor; nothing else changes. -/
def Obligations.Pack10OrsTwoBytes : Prop :=
  ∀ (n : Nat) (sym : Symbol) (s : State) (buf len : Nat), (s.ctx n).life = .ready →
    (s.ctx n).outSel = .bound buf len → (s.ctx n).bytePos + 1 < len → (s.ctx n).bitOff.toNat % 2 = 0 →
    ∃ t, exec (.pack10 n sym) s = .next t ∧ t.reply = some .done ∧
      t.read (buf + (s.ctx n).bytePos) = s.read (buf + (s.ctx n).bytePos) |||
        BitVec.ofNat 8 (sym.toNat * 2 ^ (s.ctx n).bitOff.toNat) ∧
      t.read (buf + (s.ctx n).bytePos + 1) = s.read (buf + (s.ctx n).bytePos + 1) |||
        BitVec.ofNat 8 (sym.toNat / 2 ^ (8 - (s.ctx n).bitOff.toNat)) ∧
      t.ctx n = { s.ctx n with
        bitOff := BitVec.ofNat 3 (((s.ctx n).bitOff.toNat + 10) % 8)
        bytePos := (s.ctx n).bytePos + 1 + (if ((s.ctx n).bitOff.toNat + 10) % 8 = 0 then 1 else 0) } ∧
      OnlyContextAndBytes n
        (fun a => a = buf + (s.ctx n).bytePos ∨ a = buf + (s.ctx n).bytePos + 1) s t

/-- R53, R54: seen as a bit stream, PACK10 ORs bit `j` of the symbol into stream bit `8 BYTEPOS + BITOFF + j` of the
bound buffer, leaves every other stream bit, and moves the cursor by exactly 10 bits. -/
def Obligations.Pack10AppendsTenStreamBits : Prop :=
  ∀ (n : Nat) (sym : Symbol) (s t : State) (buf len : Nat), (s.ctx n).life = .ready →
    (s.ctx n).outSel = .bound buf len → exec (.pack10 n sym) s = .next t →
    (t.ctx n).cursorBit = (s.ctx n).cursorBit + 10 ∧
    ∀ i, t.streamBit buf i = (s.streamBit buf i ||
      (decide ((s.ctx n).cursorBit ≤ i ∧ i < (s.ctx n).cursorBit + 10) && sym.getLsbD (i - (s.ctx n).cursorBit)))

/-- R60: without a bound buffer PACK10 is `NoOutput`, without room for the second byte `OutputOverrun`, each before any
write. -/
def Obligations.Pack10ChecksItsRoom : Prop :=
  ∀ (n : Nat) (sym : Symbol) (s : State), (s.ctx n).life = .ready →
    ((s.ctx n).outSel = .unbound → exec (.pack10 n sym) s = .fault (.contractViolation .noOutput s)) ∧
    (∀ buf len, (s.ctx n).outSel = .bound buf len → len ≤ (s.ctx n).bytePos + 1 →
      exec (.pack10 n sym) s = .fault (.contractViolation .outputOverrun s))

/-- R59: the encoder never clears a bit: a bit of memory that is set before PACK10 or ENCODE is set in whatever state
the command leaves. -/
def Obligations.EncoderNeverClears : Prop :=
  ∀ (i : Instr) (n : Nat) (s t : State), ((∃ sym, i = .pack10 n sym) ∨ ∃ inp, i = .encode n inp) → Leaves i s t →
    ∀ a j, (s.read a).getLsbD j = true → (t.read a).getLsbD j = true

/-! ### ENCODE -/

/-- R102, R144: where ENCSYM of a byte and then PACK10 of its symbol end normally, ENCODE of that byte ends in the same
state. -/
def Obligations.EncodeByteIsEncsymThenPack10 : Prop :=
  ∀ (n : Nat) (b : Byte) (sym : Symbol) (s t u : State), exec (.encsym n b) s = .next t →
    t.reply = some (.symbol sym) → exec (.pack10 n sym) t = .next u → exec (.encode n (.bytes [b])) s = .next u

/-- R144, R145, R148, R37: ENCODE of `m` bytes completes from every even cursor whose buffer has room for `10 m` bits
more, whatever the bytes: the cursor moves by `10 m` bits, the disparity is that of the bytes threaded through ENCSYM,
and no byte is touched before the cursor or past the last bit. -/
def Obligations.EncodeCompletesWhereThereIsRoom : Prop :=
  ∀ (n : Nat) (inp : Input) (s : State) (buf len : Nat), (s.ctx n).life = .ready →
    (s.ctx n).outSel = .bound buf len → inputOverlaps inp (s.ctx n).outSel = false →
    (s.ctx n).bitOff.toNat % 2 = 0 → (s.ctx n).cursorBit + 10 * (s.inputBytes inp).length ≤ 8 * len →
    ∃ t, exec (.encode n inp) s = .next t ∧ t.reply = some .done ∧
      t.ctx n = { s.ctx n with
        rd := encodeDisparity s.config (s.ctx n).rd (s.inputBytes inp)
        bytePos := ((s.ctx n).cursorBit + 10 * (s.inputBytes inp).length) / 8
        bitOff := BitVec.ofNat 3 (((s.ctx n).cursorBit + 10 * (s.inputBytes inp).length) % 8) } ∧
      OnlyContextAndBytes n
        (fun a => s.inputBytes inp ≠ [] ∧ buf + (s.ctx n).bytePos ≤ a ∧
          a < buf + ((s.ctx n).cursorBit + 10 * (s.inputBytes inp).length + 7) / 8) s t

/-- R147, R148, the spec's own inferences from R142 and R143: from cursor (0, 0) on a zeroed buffer, stream bit `10 k + j` is bit `j` of the `k`-th symbol, the bits
above the last symbol in its byte are 0, and every other byte is untouched. -/
def Obligations.EncodeWritesItsSymbolsInOrder : Prop :=
  ∀ (n : Nat) (inp : Input) (s : State) (buf len : Nat), (s.ctx n).life = .ready →
    (s.ctx n).outSel = .bound buf len → inputOverlaps inp (s.ctx n).outSel = false →
    (s.ctx n).bytePos = 0 → (s.ctx n).bitOff = 0 → (10 * (s.inputBytes inp).length + 7) / 8 ≤ len →
    (∀ p, p < (10 * (s.inputBytes inp).length + 7) / 8 → s.read (buf + p) = 0) →
    ∃ t, exec (.encode n inp) s = .next t ∧
      (∀ k j (h : k < (encodeSymbols s.config (s.ctx n).rd (s.inputBytes inp)).length), j < 10 →
        t.streamBit buf (10 * k + j) = ((encodeSymbols s.config (s.ctx n).rd (s.inputBytes inp))[k]).getLsbD j) ∧
      (encodeSymbols s.config (s.ctx n).rd (s.inputBytes inp)).length = (s.inputBytes inp).length ∧
      (∀ i, 10 * (s.inputBytes inp).length ≤ i → i < 8 * ((10 * (s.inputBytes inp).length + 7) / 8) →
        t.streamBit buf i = false) ∧
      (∀ a, a < buf ∨ buf + (10 * (s.inputBytes inp).length + 7) / 8 ≤ a → t.read a = s.read a) ∧
      (t.ctx n).bytePos = 10 * (s.inputBytes inp).length / 8 ∧
      (t.ctx n).bitOff.toNat = 10 * (s.inputBytes inp).length % 8

/-- R146: ENCODE of X and then of Y ends in the state that ENCODE of X ++ Y ends in, and neither completes without the
other; whichever of the three inputs stand in memory, as long as they do not overlap the bound buffer (R63). -/
def Obligations.EncodeComposes : Prop :=
  ∀ (n : Nat) (x y z : Input) (s u : State), s.inputBytes z = s.inputBytes x ++ s.inputBytes y →
    inputOverlaps x (s.ctx n).outSel = false → inputOverlaps y (s.ctx n).outSel = false →
    inputOverlaps z (s.ctx n).outSel = false →
    (exec (.encode n z) s = .next u ↔ ∃ t, exec (.encode n x) s = .next t ∧ exec (.encode n y) t = .next u)

/-- R149, the spec's own inference from R144 (the buffer not needed is its choice D14): ENCODE of no byte changes nothing
and needs no bound output. -/
def Obligations.EncodeOfNothing : Prop :=
  ∀ (n : Nat) (inp : Input) (s : State), (s.ctx n).life = .ready → s.inputBytes inp = [] →
    exec (.encode n inp) s = .next { s with reply := some .done }

/-- R60, R205, R208: where the room ends at a byte, ENCODE is `OutputOverrun` and leaves exactly what ENCODE of the
bytes before it would leave; with no buffer bound the first byte is `NoOutput` and nothing changes. -/
def Obligations.EncodeStopsWhereTheRoomEnds : Prop :=
  (∀ (n : Nat) (inp : Input) (xs ys : List Byte) (b : Byte) (s t : State) (buf len : Nat),
    (s.ctx n).outSel = .bound buf len → inputOverlaps inp (s.ctx n).outSel = false →
    s.inputBytes inp = xs ++ b :: ys → exec (.encode n (.bytes xs)) s = .next t → len ≤ (t.ctx n).bytePos + 1 →
    exec (.encode n inp) s = .fault (.contractViolation .outputOverrun { t with reply := s.reply })) ∧
  (∀ (n : Nat) (inp : Input) (s : State), (s.ctx n).life = .ready → (s.ctx n).outSel = .unbound →
    s.inputBytes inp ≠ [] → exec (.encode n inp) s = .fault (.contractViolation .noOutput s))

/-- R63: ENCODE and DECODE whose input stands in memory that overlaps the bound buffer are refused, and no step is made
of commands issued at once with one of them among them. That the whole bound buffer counts, and the place of the check
among the others, is the model's choice (log 13), and so is the refusal of the whole request (log 12). -/
def Obligations.OverlappingInputRefused : Prop :=
  (∀ (n base m buf len a l : Nat) (s : State), (s.ctx n).life = .ready → (s.ctx n).outSel = .bound buf len →
    base ≤ a → a < base + m → buf ≤ a → a < buf + len →
    exec (.encode n (.buffer base m)) s = .refused (.inputOverlapsOutput n) ∧
    exec (.decode n (.buffer base m) l) s = .refused (.inputOverlapsOutput n)) ∧
  (∀ (s : State) (c d : Command) (also : List Command) (rest : List Request) (n : Nat) (inp : Input),
    s.pending = .issue c also :: rest → d ∈ c :: also →
    decode d = .ok (.encode n inp) ∨ (∃ l, decode d = .ok (.decode n inp l)) → (s.ctx n).life = .ready →
    inputOverlaps inp (s.ctx n).outSel = true → ∃ r, step s = .refused r)

/-! ### Decoders -/

/-- R160, R161, R164: DEC6 and DEC4 return their table's entry and change nothing. -/
def Obligations.SubSymbolDecodersLookUp : Prop :=
  (∀ (c : Nat) (s : State) (h : c < 64), ∃ t, exec (.dec6 c) s = .next t ∧
    t.reply = some (.low s.config.tables.dec6[c]) ∧ OnlyReply s t) ∧
  (∀ (c : Nat) (s : State) (h : c < 16), ∃ t, exec (.dec4 c) s = .next t ∧
    t.reply = some (.high s.config.tables.dec4[c]) ∧ OnlyReply s t)

/-- R162: DECSYM looks both codewords up, returns `Invalid` when either is, else the byte with the 4-bit codeword's
value on top, and changes nothing. -/
def Obligations.DecsymJoinsBothValues : Prop :=
  ∀ (sym : Symbol) (s : State), ∃ t, exec (.decsym sym) s = .next t ∧ OnlyReply s t ∧
    t.reply = some (.byte
      (match s.config.tables.dec6At (BitVec.ofNat 6 (sym.toNat % 64)),
          s.config.tables.dec4At (BitVec.ofNat 4 (sym.toNat / 64)) with
        | some l, some h => some (BitVec.ofNat 8 (h.toNat * 32 + l.toNat))
        | _, _ => none))

/-- R162, R88 item 6: with tables that meet the round trip, DECSYM of what ENCSYM returns is the byte, for every byte,
disparity and order. -/
def Obligations.DecsymInvertsEncsym : Prop :=
  ∀ (n : Nat) (b : Byte) (s t : State), Tables.RoundTrip s.config.tables → exec (.encsym n b) s = .next t →
    ∃ sym u, t.reply = some (.symbol sym) ∧ exec (.decsym sym) t = .next u ∧ u.reply = some (.byte (some b))

/-- R91, R92: the default decode tables are the exact inverse of the default encode tables: an entry is `v` exactly when
the index is an output of `v` at some disparity. The tables are the spec's own defaults (log 3). -/
def Obligations.DefaultDecodeTablesAreInverse : Prop :=
  (∀ (c : Code6) (v : Low), defaultConfig.tables.dec6At c = some v ↔
    ∃ rd, subOut (defaultConfig.tables.enc6At v) rd = c) ∧
  (∀ (c : Code4) (v : High), defaultConfig.tables.dec4At c = some v ↔
    ∃ rd, subOut (defaultConfig.tables.enc4At v) rd = c)

/-- R88: the default parameters conform, and under the other order and the other `DEC4_A7` as well. The tables
are the spec's own defaults (log 3). -/
def Obligations.DefaultsConform : Prop :=
  ∀ (o : SubsymOrder) (a7 : Dec4A7), Config.Conforms { order := o, tables := standardTables a7 }

/-! ### Stream unpacker and DECODE -/

/-- R179: UNPACK10 returns the symbol whose bit `j` is stream bit `10 k + j` of the input and changes nothing; with too
few bytes it is `InputTooShort` and changes nothing. -/
def Obligations.Unpack10ReadsTenStreamBits : Prop :=
  ∀ (inp : Input) (k : Nat) (s : State),
    (10 * k + 10 ≤ 8 * (s.inputBytes inp).length → ∃ t sym, exec (.unpack10 inp k) s = .next t ∧
      t.reply = some (.symbol sym) ∧ (∀ j, j < 10 → sym.getLsbD j = streamBit (s.inputBytes inp) (10 * k + j)) ∧
      OnlyReply s t) ∧
    (8 * (s.inputBytes inp).length < 10 * k + 10 →
      exec (.unpack10 inp k) s = .fault (.contractViolation .inputTooShort s))

/-- R170, R175 to R177, R179, R182, R183: DECODE stores the bytes of the symbols before the first invalid one, one after
the other from the byte position on, and advances it by their number; it returns `Ok` when no symbol is invalid and
`CodeViolation` otherwise, and nothing else changes: the disparity, the bit offset and every other byte are kept. -/
def Obligations.DecodeStoresTheValidPrefix : Prop :=
  ∀ (n : Nat) (inp : Input) (l : Nat) (s : State) (out : List Byte), (s.ctx n).life = .ready →
    inputOverlaps inp (s.ctx n).outSel = false → l % 10 = 0 → l ≤ 8 * (s.inputBytes inp).length →
    out = decodedBytes s.config.tables (unpackSymbols (s.inputBytes inp) (l / 10)) →
    (out = [] ∨ ∃ buf len, (s.ctx n).outSel = .bound buf len ∧ (s.ctx n).bytePos + out.length ≤ len) →
    ∃ t, exec (.decode n inp l) s = .next t ∧
      t.reply = some (if out.length = l / 10 then .ok else .codeViolation) ∧
      t.ctx n = { s.ctx n with bytePos := (s.ctx n).bytePos + out.length } ∧
      (∀ buf len, (s.ctx n).outSel = .bound buf len → ∀ k (h : k < out.length),
        t.read (buf + (s.ctx n).bytePos + k) = out[k]) ∧
      OnlyContextAndBytes n
        (fun a => ∃ buf len, (s.ctx n).outSel = .bound buf len ∧ buf + (s.ctx n).bytePos ≤ a ∧
          a < buf + (s.ctx n).bytePos + out.length) s t

/-- R60, R205, R208: where the bound buffer ends before the valid symbols do, DECODE is `OutputOverrun` and leaves the
bytes that fitted; with no buffer bound the first valid symbol is `NoOutput` and nothing changes. -/
def Obligations.DecodeStopsWhereTheRoomEnds : Prop :=
  ∀ (n : Nat) (inp : Input) (l : Nat) (s : State) (out : List Byte), (s.ctx n).life = .ready →
    inputOverlaps inp (s.ctx n).outSel = false → l % 10 = 0 → l ≤ 8 * (s.inputBytes inp).length →
    out = decodedBytes s.config.tables (unpackSymbols (s.inputBytes inp) (l / 10)) →
    ((s.ctx n).outSel = .unbound → out ≠ [] → exec (.decode n inp l) s = .fault (.contractViolation .noOutput s)) ∧
    (∀ buf len, (s.ctx n).outSel = .bound buf len → (s.ctx n).bytePos ≤ len →
      len < (s.ctx n).bytePos + out.length →
      ∃ t, exec (.decode n inp l) s = .fault (.contractViolation .outputOverrun t) ∧ t.reply = s.reply ∧
        t.ctx n = { s.ctx n with bytePos := len } ∧
        (∀ k (h : k < out.length), (s.ctx n).bytePos + k < len → t.read (buf + (s.ctx n).bytePos + k) = out[k]) ∧
        OnlyContextAndBytes n (fun a => buf + (s.ctx n).bytePos ≤ a ∧ a < buf + len) s t)

/-- R178, R171: of two DECODE commands on one context the second takes its symbols from bit 0 of its own input and stores
where the first has stopped, whether the first ended in `Ok` or in `CodeViolation`: the bytes of both stand one after
the other. -/
def Obligations.DecodesStoreOneAfterTheOther : Prop :=
  ∀ (n : Nat) (a b : Input) (l m : Nat) (s t u : State) (buf len : Nat) (out : List Byte),
    (s.ctx n).outSel = .bound buf len → exec (.decode n a l) s = .next t → exec (.decode n b m) t = .next u →
    out = decodedBytes s.config.tables (unpackSymbols (s.inputBytes a) (l / 10)) ++
      decodedBytes s.config.tables (unpackSymbols (t.inputBytes b) (m / 10)) →
    (u.ctx n).bytePos = (s.ctx n).bytePos + out.length ∧
    ∀ k (h : k < out.length), u.read (buf + (s.ctx n).bytePos + k) = out[k]

/-- R185, R61, R208: a `bitLength` that is no multiple of 10 is refused whole, whatever the input's length; one with
more bits than the input has is `InputTooShort`, with nothing touched. -/
def Obligations.DecodeChecksItsBitLength : Prop :=
  ∀ (n : Nat) (inp : Input) (l : Nat) (s : State), (s.ctx n).life = .ready →
    inputOverlaps inp (s.ctx n).outSel = false →
    (l % 10 ≠ 0 → exec (.decode n inp l) s = .fault (.contractViolation .bitLengthNotMultipleOf10 s)) ∧
    (l % 10 = 0 → 8 * (s.inputBytes inp).length < l →
      exec (.decode n inp l) s = .fault (.contractViolation .inputTooShort s))

/-- R184, the spec's own inference from R170 (the buffer not needed is its choice D14): DECODE of 0 bits reads and stores nothing, needs no bound output and returns `Ok`. -/
def Obligations.DecodeOfNothing : Prop :=
  ∀ (n : Nat) (inp : Input) (s : State), (s.ctx n).life = .ready → inputOverlaps inp (s.ctx n).outSel = false →
    exec (.decode n inp 0) s = .next { s with reply := some .ok }

/-- R181, the spec's own inference from R170 and R171: the bits of the input beyond `bitLength` have no part in the outcome, in whichever form the input comes. -/
def Obligations.DecodeIgnoresTheTail : Prop :=
  ∀ (n l : Nat) (a b : Input) (s : State), l ≤ 8 * (s.inputBytes a).length → l ≤ 8 * (s.inputBytes b).length →
    inputOverlaps a (s.ctx n).outSel = inputOverlaps b (s.ctx n).outSel →
    (∀ i, i < l → streamBit (s.inputBytes a) i = streamBit (s.inputBytes b) i) →
    exec (.decode n a l) s = exec (.decode n b l) s

/-! ### Round trip -/

/-- R234: an encoder at cursor (0, 0) on a zeroed buffer encodes S; a decoder bound to other memory with room for S
then decodes that buffer, from bit 0, `10 n` bits: the result is `Ok` and the decoder's buffer holds S. For every
disparity, order and tables that meet R88 item 6, and S in either form of input. -/
def Obligations.DecodeOfEncodeGivesTheBytesBack : Prop :=
  ∀ (e d ebuf elen dbuf dlen : Nat) (inp : Input) (xs : List Byte) (s : State), e ≠ d →
    Tables.RoundTrip s.config.tables → s.inputBytes inp = xs → inputOverlaps inp (s.ctx e).outSel = false →
    (s.ctx e).life = .ready → (s.ctx e).outSel = .bound ebuf elen → (s.ctx e).bytePos = 0 → (s.ctx e).bitOff = 0 →
    (10 * xs.length + 7) / 8 ≤ elen → (∀ p, p < (10 * xs.length + 7) / 8 → s.read (ebuf + p) = 0) →
    (s.ctx d).life = .ready → (s.ctx d).outSel = .bound dbuf dlen → (s.ctx d).bytePos = 0 → xs.length ≤ dlen →
    inputOverlaps (.buffer ebuf ((10 * xs.length + 7) / 8)) (.bound dbuf dlen) = false →
    ∃ t u, exec (.encode e inp) s = .next t ∧
      exec (.decode d (.buffer ebuf ((10 * xs.length + 7) / 8)) (10 * xs.length)) t = .next u ∧
      u.reply = some .ok ∧ u.readBytes dbuf xs.length = xs

/-! ### Whole-machine rules -/

/-- R120: only INIT forces the disparity, to Negative, and only the sub-symbol encodings move it. -/
def Obligations.OnlyEncodersMoveTheDisparity : Prop :=
  ∀ (i : Instr) (s t : State) (n : Nat), Leaves i s t → (t.ctx n).rd ≠ (s.ctx n).rd →
    (i = .init n ∧ (t.ctx n).rd = .negative) ∨ (∃ v, i = .enc6 n v) ∨ (∃ v, i = .enc4 n v) ∨
      (∃ b, i = .encsym n b) ∨ ∃ inp, i = .encode n inp

/-- R34: a command leaves every context it does not name as it was; DEC6, DEC4, DECSYM and UNPACK10 name none. -/
def Obligations.OtherContextsUntouched : Prop :=
  ∀ (i : Instr) (s t : State) (n : Nat), Leaves i s t → contextOf i ≠ some n → t.ctx n = s.ctx n

/-- R65: a byte of memory changes only inside the buffer bound to the context of a PACK10, ENCODE or DECODE. -/
def Obligations.MemoryWrittenOnlyInsideTheBoundBuffer : Prop :=
  ∀ (i : Instr) (s t : State) (a : Nat), Leaves i s t → t.read a ≠ s.read a →
    ∃ n buf len, (s.ctx n).outSel = .bound buf len ∧ buf ≤ a ∧ a < buf + len ∧
      ((∃ sym, i = .pack10 n sym) ∨ (∃ inp, i = .encode n inp) ∨ ∃ inp l, i = .decode n inp l)

/-- R69: no command and no step changes the tables (nor `SUBSYM_ORDER`), and no command touches the requests. -/
def Obligations.TablesNeverChange : Prop :=
  (∀ (i : Instr) (s t : State), Leaves i s t → t.config = s.config ∧ t.pending = s.pending) ∧
  (∀ s t : State, step s = .next t → t.config = s.config)

/-- R205: the contract violations found before any state change leave all state untouched, and so does every one but in
ENCODE and DECODE. -/
def Obligations.EarlyViolationsTouchNothing : Prop :=
  ∀ (i : Instr) (s t : State) (k : ContractViolation), exec i s = .fault (.contractViolation k t) →
    ((k ≠ .noOutput ∧ k ≠ .outputOverrun) ∨ ((∀ n inp, i ≠ .encode n inp) ∧ ∀ n inp l, i ≠ .decode n inp l)) → t = s

/-- R206: in a state that meets the invariant a command ends normally, or in a contract violation its row lists, or is
an ENCODE or DECODE refused because its input overlaps the bound buffer (R63, log 13); only DECODE returns
`CodeViolation`. -/
def Obligations.OutcomesPerCommand : Prop :=
  ∀ (i : Instr) (s : State), s.Inv →
    ((∃ t, exec i s = .next t ∧ (t.reply = some .codeViolation → ∃ n inp l, i = .decode n inp l)) ∨
      (∃ k t, k ∈ violationsOf i ∧ exec i s = .fault (.contractViolation k t)) ∨
      ∃ n inp, (i = .encode n inp ∨ ∃ l, i = .decode n inp l) ∧ inputOverlaps inp (s.ctx n).outSel = true ∧
        exec i s = .refused (.inputOverlapsOutput n))

/-- The state after reset is the one of R230: context 0 as INIT leaves it (log 1), no byte listed (log 6); it meets the
invariant. -/
def Obligations.ResetMeetsTheInvariant : Prop :=
  State.reset.Inv ∧ State.reset.ctx 0 = { life := .ready, rd := .negative, outSel := .unbound, bytePos := 0, bitOff := 0 }

/-- R36, R23, R25: every step keeps the invariant: the canonical forms of memory and of the contexts, an even bit
offset, a cursor inside the bound buffer, nothing in a created context (log 2); and so does the state a fault leaves. -/
def Obligations.StepKeepsTheInvariant : Prop :=
  ∀ s : State, s.Inv → (∀ t, step s = .next t → t.Inv) ∧ (∀ f, step s = .fault f → f.left.Inv)

/-- R34, R66 (D19): two commands the environment may issue at once commute: run in the other order they end normally
too, each returns the same result, and every context and every byte ends the same. Which commands clash is the model's
reading (log 12). Pairs of which one ends in a fault are left out: a fault ends the run. -/
def Obligations.CommandsThatDoNotClashCommute : Prop :=
  ∀ (i j : Instr) (s t u : State), clash s i j = none → exec i s = .next t → exec j t = .next u →
    ∃ t' u', exec j s = .next t' ∧ exec i t' = .next u' ∧ t'.reply = u.reply ∧ u'.reply = t.reply ∧
      (∀ n, u'.ctx n = u.ctx n) ∧ (∀ a, u'.read a = u.read a) ∧ u'.config = u.config ∧ u'.pending = u.pending

/-! ### The boundary to the binding layer -/

/-- R204, R61: the binding layer's check passes 1 byte for 10 bits, where DECODE is `InputTooShort`. For every legal
`bitLength`: DECODE is `InputTooShort` exactly where the input has fewer bits; it is so wherever the binding layer's check
raises `Truncated`; where that check passes, exactly one byte can be missing, with a `bitLength` that is no multiple of 8;
and the two agree where `bitLength` is a multiple of 40. -/
def Obligations.BindingCheckUnderCounts : Prop :=
  bindingTruncates 1 10 = false ∧
  ∀ (n : Nat) (inp : Input) (l : Nat) (s : State), (s.ctx n).life = .ready →
    inputOverlaps inp (s.ctx n).outSel = false → l % 10 = 0 →
    let m := (s.inputBytes inp).length
    let short := exec (.decode n inp l) s = .fault (.contractViolation .inputTooShort s)
    (m = 1 → l = 10 → short) ∧ (short ↔ 8 * m < l) ∧ (bindingTruncates m l = true → short) ∧
      (bindingTruncates m l = false → (short ↔ m = l / 8 ∧ l % 8 ≠ 0)) ∧
      (l % 40 = 0 → (bindingTruncates m l = true ↔ short))

/-! ### Commands issued at once -/

/-- R212, D19: once the first of several commands issued at once has been served, the others are next, and what comes
next is no refusal: whether they have a meaning together is settled before any of them runs (log 12). -/
def Obligations.CommandsAcceptedTogetherAreServed : Prop :=
  ∀ (s t : State) (c d : Command) (ds : List Command) (rest : List Request),
    s.pending = .issue c (d :: ds) :: rest → step s = .next t →
    t.pending = .issue d ds :: rest ∧ ∀ r, step t ≠ .refused r
end

