-- ==== Sys2Proof/Laws/Sparse.lean ====
section
/-! SUPPORT. Sparse data: read after write, the canonical form is kept, and canonical data are determined by their reads. -/

namespace Sys2Proof.Machine

variable {α : Type} {d : α}

@[simp] theorem sparseGet_nil (i : Nat) : sparseGet d [] i = d := rfl

theorem sparseGet_cons (e : Nat × α) (m : List (Nat × α)) (i : Nat) :
    sparseGet d (e :: m) i = if i = e.1 then e.2 else sparseGet d m i := rfl

theorem sparseGet_of_absent {m : List (Nat × α)} {i : Nat} (h : ∀ e ∈ m, e.1 ≠ i) : sparseGet d m i = d := by
  induction m with
  | nil => rfl
  | cons e m ih =>
    have he : i ≠ e.1 := fun hi => h e List.mem_cons_self hi.symm
    rw [sparseGet_cons, if_neg he]
    exact ih fun f hf => h f (List.mem_cons_of_mem e hf)

theorem sparseGet_filter_ne {m : List (Nat × α)} {i j : Nat} (h : j ≠ i) :
    sparseGet d (m.filter fun e => e.1 != i) j = sparseGet d m j := by
  induction m with
  | nil => rfl
  | cons e m ih =>
    rw [List.filter_cons]
    split <;> rename_i he
    · rw [sparseGet_cons, sparseGet_cons, ih]
    · have hi : e.1 = i := by simpa using he
      rw [sparseGet_cons, ih, if_neg (hi ▸ h)]

theorem sparseGet_insert {m : List (Nat × α)} {i : Nat} (v : α) (h : ∀ e ∈ m, e.1 ≠ i) (j : Nat) :
    sparseGet d (sparseInsert i v m) j = if j = i then v else sparseGet d m j := by
  induction m with
  | nil => rfl
  | cons e m ih =>
    have he : e.1 ≠ i := h e List.mem_cons_self
    unfold sparseInsert
    split
    · rw [sparseGet_cons]
    · rw [sparseGet_cons, ih fun f hf => h f (List.mem_cons_of_mem e hf), sparseGet_cons]
      by_cases hj : j = i
      · subst hj
        rw [if_neg (Ne.symm he), if_pos rfl, if_pos rfl]
      · rw [if_neg hj, if_neg hj]

theorem filter_ne_absent (m : List (Nat × α)) (i : Nat) : ∀ e ∈ m.filter (fun e => e.1 != i), e.1 ≠ i := by
  intro e he
  simpa using (List.mem_filter.mp he).2

variable [DecidableEq α]

/-- Read after write. -/
theorem sparseGet_set (m : List (Nat × α)) (i j : Nat) (v : α) :
    sparseGet d (sparseSet d m i v) j = if j = i then v else sparseGet d m j := by
  unfold sparseSet
  by_cases hj : j = i
  · subst hj
    split <;> rename_i hv
    · rw [if_pos rfl, sparseGet_of_absent (filter_ne_absent m j), hv]
    · rw [sparseGet_insert v (filter_ne_absent m j), if_pos rfl, if_pos rfl]
  · rw [if_neg hj]
    by_cases hv : v = d
    · rw [if_pos hv, sparseGet_filter_ne hj]
    · rw [if_neg hv, sparseGet_insert v (filter_ne_absent m i), if_neg hj, sparseGet_filter_ne hj]

theorem mem_sparseInsert {m : List (Nat × α)} {i : Nat} {v : α} {e : Nat × α} :
    e ∈ sparseInsert i v m ↔ e = (i, v) ∨ e ∈ m := by
  induction m with
  | nil => simp [sparseInsert]
  | cons f m ih =>
    unfold sparseInsert
    split
    · simp
    · rw [List.mem_cons, ih, List.mem_cons]
      tauto

theorem sparseInsert_rising {m : List (Nat × α)} {i : Nat} {v : α} (hm : m.Pairwise fun e f => e.1 < f.1)
    (hi : ∀ e ∈ m, e.1 ≠ i) : (sparseInsert i v m).Pairwise fun e f => e.1 < f.1 := by
  induction m with
  | nil => exact List.pairwise_singleton _ _
  | cons f m ih =>
    obtain ⟨hf, hm'⟩ := List.pairwise_cons.mp hm
    unfold sparseInsert
    split <;> rename_i hlt
    · refine List.pairwise_cons.mpr ⟨fun e he => ?_, hm⟩
      rcases List.mem_cons.mp he with rfl | he
      · exact hlt
      · exact Nat.lt_trans hlt (hf e he)
    · refine List.pairwise_cons.mpr ⟨fun e he => ?_, ih hm' fun e he => hi e (List.mem_cons_of_mem f he)⟩
      rcases mem_sparseInsert.mp he with rfl | he
      · have := hi f List.mem_cons_self
        simp only at *
        omega
      · exact hf e he

/-- A write keeps the canonical form. -/
theorem sparseSet_wf {m : List (Nat × α)} (h : SparseWf d m) (i : Nat) (v : α) : SparseWf d (sparseSet d m i v) := by
  have hm : (m.filter fun e => e.1 != i).Pairwise fun e f => e.1 < f.1 := h.1.filter _
  have hd : ∀ e ∈ m.filter (fun e => e.1 != i), e.2 ≠ d := fun e he => h.2 e (List.mem_filter.mp he).1
  unfold sparseSet
  split <;> rename_i hv
  · exact ⟨hm, hd⟩
  · refine ⟨sparseInsert_rising hm (filter_ne_absent m i), fun e he => ?_⟩
    rcases mem_sparseInsert.mp he with rfl | he
    · exact hv
    · exact hd e he

omit [DecidableEq α] in
theorem sparseGet_of_mem {m : List (Nat × α)} (h : SparseWf d m) {e : Nat × α} (he : e ∈ m) :
    sparseGet d m e.1 = e.2 := by
  induction m with
  | nil => exact absurd he (List.not_mem_nil)
  | cons f m ih =>
    obtain ⟨hf, hm⟩ := List.pairwise_cons.mp h.1
    rw [sparseGet_cons]
    rcases List.mem_cons.mp he with rfl | he
    · rw [if_pos rfl]
    · rw [if_neg (Nat.ne_of_gt (hf e he)), ih ⟨hm, fun g hg => h.2 g (List.mem_cons_of_mem f hg)⟩ he]

/-- Canonical data with the same reads are the same data. -/
theorem sparse_ext {m k : List (Nat × α)} (hm : SparseWf d m) (hk : SparseWf d k)
    (h : ∀ i, sparseGet d m i = sparseGet d k i) : m = k := by
  have sub : ∀ {m k : List (Nat × α)}, SparseWf d m → (∀ i, sparseGet d m i = sparseGet d k i) →
      ∀ e ∈ m, e ∈ k := by
    intro m k hm h e he
    by_contra hn
    have h1 := h e.1
    rw [sparseGet_of_mem hm he] at h1
    have h2 : sparseGet d k e.1 = d ∨ (e.1, sparseGet d k e.1) ∈ k := by
      clear h h1 hn
      induction k with
      | nil => exact .inl rfl
      | cons f k ih =>
        rw [sparseGet_cons]
        split <;> rename_i hf
        · exact .inr (by rw [hf]; exact List.mem_cons_self)
        · exact ih.imp id (List.mem_cons_of_mem f)
    rcases h2 with h2 | h2
    · exact hm.2 e he (h1.trans h2)
    · rw [← h1] at h2
      exact hn h2
  have inj : ∀ {m : List (Nat × α)}, SparseWf d m → m.Nodup := fun hm =>
    hm.1.imp fun {a b} (hlt : a.1 < b.1) (heq : a = b) => absurd (heq ▸ hlt : a.1 < a.1) (Nat.lt_irrefl _)
  refine List.Perm.eq_of_pairwise (le := fun e f => e.1 < f.1) ?_ hm.1 hk.1
    ((List.perm_ext_iff_of_nodup (inj hm) (inj hk)).mpr fun e =>
      ⟨sub hm h e, sub hk (fun i => (h i).symm) e⟩)
  intro a b _ _ hab hba
  exact absurd (Nat.lt_trans hab hba) (Nat.lt_irrefl _)

end Sys2Proof.Machine
end

