-- ==== Sys2Proof/Laws/State.lean ====
section
/-! SUPPORT. One lemma per field and update of State, and read after write for contexts and memory. -/

namespace Sys2Proof.Machine

variable (s : State) (n m a x : Nat) (c : Context) (b : Byte) (r : Reply) (rest : List Request) (rd : Disparity)

/-! ### Writing a context -/

@[simp] theorem setCtx_mem : (s.setCtx n c).mem = s.mem := rfl
@[simp] theorem setCtx_config : (s.setCtx n c).config = s.config := rfl
@[simp] theorem setCtx_pending : (s.setCtx n c).pending = s.pending := rfl
@[simp] theorem setCtx_reply : (s.setCtx n c).reply = s.reply := rfl
@[simp] theorem setCtx_read : (s.setCtx n c).read a = s.read a := rfl

theorem setCtx_ctx : (s.setCtx n c).ctx m = if m = n then c else s.ctx m := sparseGet_set _ _ _ _
@[simp] theorem setCtx_ctx_same : (s.setCtx n c).ctx n = c := (setCtx_ctx s n n c).trans (if_pos rfl)
theorem setCtx_ctx_other {m n : Nat} (h : m ≠ n) : (s.setCtx n c).ctx m = s.ctx m :=
  (setCtx_ctx s n m c).trans (if_neg h)

@[simp] theorem setRd_mem : (s.setRd n rd).mem = s.mem := rfl
@[simp] theorem setRd_config : (s.setRd n rd).config = s.config := rfl
@[simp] theorem setRd_pending : (s.setRd n rd).pending = s.pending := rfl
@[simp] theorem setRd_reply : (s.setRd n rd).reply = s.reply := rfl
@[simp] theorem setRd_read : (s.setRd n rd).read a = s.read a := rfl
@[simp] theorem setRd_ctx_same : (s.setRd n rd).ctx n = { s.ctx n with rd := rd } := setCtx_ctx_same s n _
theorem setRd_ctx_other {m n : Nat} (h : m ≠ n) : (s.setRd n rd).ctx m = s.ctx m := setCtx_ctx_other s _ h

/-! ### Writing a byte -/

@[simp] theorem write_ctxs : (s.write a b).ctxs = s.ctxs := rfl
@[simp] theorem write_config : (s.write a b).config = s.config := rfl
@[simp] theorem write_pending : (s.write a b).pending = s.pending := rfl
@[simp] theorem write_reply : (s.write a b).reply = s.reply := rfl
@[simp] theorem write_ctx : (s.write a b).ctx n = s.ctx n := rfl

theorem write_read : (s.write a b).read x = if x = a then b else s.read x := sparseGet_set _ _ _ _
@[simp] theorem write_read_same : (s.write a b).read a = b := (write_read s a a b).trans (if_pos rfl)
theorem write_read_other {x a : Nat} (h : x ≠ a) : (s.write a b).read x = s.read x :=
  (write_read s a x b).trans (if_neg h)

@[simp] theorem orByte_ctxs : (s.orByte a b).ctxs = s.ctxs := rfl
@[simp] theorem orByte_config : (s.orByte a b).config = s.config := rfl
@[simp] theorem orByte_pending : (s.orByte a b).pending = s.pending := rfl
@[simp] theorem orByte_reply : (s.orByte a b).reply = s.reply := rfl
@[simp] theorem orByte_ctx : (s.orByte a b).ctx n = s.ctx n := rfl

theorem orByte_read : (s.orByte a b).read x = if x = a then s.read a ||| b else s.read x := write_read _ _ _ _

/-! ### Writing the other fields -/

@[simp] theorem withReply_ctxs : (s.withReply r).ctxs = s.ctxs := rfl
@[simp] theorem withReply_mem : (s.withReply r).mem = s.mem := rfl
@[simp] theorem withReply_config : (s.withReply r).config = s.config := rfl
@[simp] theorem withReply_pending : (s.withReply r).pending = s.pending := rfl
@[simp] theorem withReply_reply : (s.withReply r).reply = some r := rfl
@[simp] theorem withReply_ctx : (s.withReply r).ctx n = s.ctx n := rfl
@[simp] theorem withReply_read : (s.withReply r).read a = s.read a := rfl

@[simp] theorem withPending_ctxs : (s.withPending rest).ctxs = s.ctxs := rfl
@[simp] theorem withPending_mem : (s.withPending rest).mem = s.mem := rfl
@[simp] theorem withPending_config : (s.withPending rest).config = s.config := rfl
@[simp] theorem withPending_pending : (s.withPending rest).pending = rest := rfl
@[simp] theorem withPending_reply : (s.withPending rest).reply = s.reply := rfl
@[simp] theorem withPending_ctx : (s.withPending rest).ctx n = s.ctx n := rfl
@[simp] theorem withPending_read : (s.withPending rest).read a = s.read a := rfl

/-! ### A run of bytes -/

theorem writeBytes_fields (bs : List Byte) (s : State) (a : Nat) :
    (s.writeBytes a bs).ctxs = s.ctxs ∧ (s.writeBytes a bs).config = s.config ∧
      (s.writeBytes a bs).pending = s.pending ∧ (s.writeBytes a bs).reply = s.reply := by
  induction bs generalizing s a with
  | nil => exact ⟨rfl, rfl, rfl, rfl⟩
  | cons b bs ih => exact ih (s.write a b) (a + 1)

theorem writeBytes_read (bs : List Byte) (s : State) (a x : Nat) :
    (s.writeBytes a bs).read x = if a ≤ x ∧ x < a + bs.length then bs.getD (x - a) 0 else s.read x := by
  induction bs generalizing s a with
  | nil =>
    rw [if_neg (by simp only [List.length_nil]; omega)]
    rfl
  | cons b bs ih =>
    rw [State.writeBytes, ih, write_read, List.length_cons]
    by_cases hx : x = a
    · subst hx
      rw [if_neg (by omega), if_pos rfl, if_pos (by omega), Nat.sub_self, List.getD_cons_zero]
    · rw [if_neg hx]
      by_cases hin : a + 1 ≤ x ∧ x < a + 1 + bs.length
      · rw [if_pos hin, if_pos (by omega), show x - a = (x - (a + 1)) + 1 by omega, List.getD_cons_succ]
      · rw [if_neg hin, if_neg (by omega)]

@[simp] theorem readBytes_length (len : Nat) : (s.readBytes a len).length = len := by
  simp [State.readBytes]

theorem readBytes_getD {len i : Nat} (h : i < len) : (s.readBytes a len).getD i 0 = s.read (a + i) := by
  simp [State.readBytes, h]

/-- Runs of bytes are equal where every byte is. -/
theorem readBytes_congr {s t : State} {a len : Nat} (h : ∀ i, i < len → s.read (a + i) = t.read (a + i)) :
    s.readBytes a len = t.readBytes a len :=
  List.map_congr_left fun i hi => h i (List.mem_range.mp hi)

/-! ### The canonical forms are kept by every operation that writes -/

theorem write_wf {s : State} (h : Memory.wf s.mem) : Memory.wf (s.write a b).mem := sparseSet_wf h a b
theorem orByte_wf {s : State} (h : Memory.wf s.mem) : Memory.wf (s.orByte a b).mem := sparseSet_wf h a _
theorem setCtx_wf {s : State} (h : Contexts.wf s.ctxs) : Contexts.wf (s.setCtx n c).ctxs := sparseSet_wf h n c

theorem writeBytes_wf (bs : List Byte) {s : State} (a : Nat) (h : Memory.wf s.mem) :
    Memory.wf (s.writeBytes a bs).mem := by
  induction bs generalizing s a with
  | nil => exact h
  | cons b bs ih => exact ih (a + 1) (write_wf a b h)

theorem reset_wf : Memory.wf State.reset.mem ∧ Contexts.wf State.reset.ctxs := by decide

end Sys2Proof.Machine
end

