-- ==== Sys2Proof/Laws/Symbols.lean ====
section
/-! SUPPORT. Fields of bytes and symbols, and the disparity. -/

namespace Sys2Proof.Machine

@[simp] theorem code6Of_join (c4 : Code4) (c6 : Code6) : code6Of (joinSymbol c4 c6) = c6 := by
  revert c4 c6
  decide

@[simp] theorem code4Of_join (c4 : Code4) (c6 : Code6) : code4Of (joinSymbol c4 c6) = c4 := by
  revert c4 c6
  decide

@[simp] theorem joinByte_split (b : Byte) : joinByte (highOf b) (lowOf b) = b := by
  revert b
  decide

theorem lowOf_eq (b : Byte) : lowOf b = BitVec.ofNat 5 (b.toNat % 32) := by revert b; decide
theorem highOf_eq (b : Byte) : highOf b = BitVec.ofNat 3 (b.toNat / 32) := by revert b; decide

theorem joinSymbol_toNat (c4 : Code4) (c6 : Code6) : (joinSymbol c4 c6).toNat = c4.toNat * 64 + c6.toNat := by
  revert c4 c6
  decide

theorem joinByte_toNat (hi : High) (lo : Low) : (joinByte hi lo).toNat = hi.toNat * 32 + lo.toNat := by
  revert hi lo
  decide

theorem code6Of_eq (s : Symbol) : code6Of s = BitVec.ofNat 6 (s.toNat % 64) := by
  apply BitVec.eq_of_toNat_eq
  simp [code6Of, BitVec.extractLsb'_toNat]

theorem code4Of_eq (s : Symbol) : code4Of s = BitVec.ofNat 4 (s.toNat / 64) := by
  apply BitVec.eq_of_toNat_eq
  simp [code4Of, BitVec.extractLsb'_toNat, Nat.shiftRight_eq_div_pow]

@[simp] theorem flip_flip (rd : Disparity) : rd.flip.flip = rd := by cases rd <;> rfl
theorem flip_ne (rd : Disparity) : rd.flip ≠ rd := by cases rd <;> decide
@[simp] theorem toggle_false (rd : Disparity) : rd.toggle false = rd := rfl
@[simp] theorem toggle_true (rd : Disparity) : rd.toggle true = rd.flip := rfl

theorem toggle_toggle (rd : Disparity) (p q : Bool) : (rd.toggle p).toggle q = rd.toggle (p != q) := by
  cases p <;> cases q <;> simp

/-- The complement masked to width, as a number (R11 (a)). -/
theorem not_eq_ofNat {w : Nat} (c : BitVec w) : ~~~c = BitVec.ofNat w (2 ^ w - 1 - c.toNat) := by
  apply BitVec.eq_of_toNat_eq
  rw [BitVec.toNat_not, BitVec.toNat_ofNat, Nat.mod_eq_of_lt (by have := c.isLt; omega)]

/-- The codeword's symbol fields and the net disparity of one byte, under either order (R140). -/
theorem encodeSymbol_disparity (cfg : Config) (rd : Disparity) (b : Byte) :
    (encodeSymbol cfg rd b).2 =
      rd.toggle ((cfg.tables.enc6At (lowOf b)).togglesDisparity != (cfg.tables.enc4At (highOf b)).togglesDisparity) := by
  cases h : cfg.order <;> simp only [encodeSymbol, h, subEnc, toggle_toggle]
  rw [bne_comm]

/-- What DECSYM gives for a symbol put together of two codewords (R162). -/
theorem decodeSymbol_join (t : Tables) (c4 : Code4) (c6 : Code6) :
    decodeSymbol t (joinSymbol c4 c6) =
      match t.dec6At c6, t.dec4At c4 with
      | some lo, some hi => some (joinByte hi lo)
      | _, _ => none := by
  simp only [decodeSymbol, code6Of_join, code4Of_join] <;> rfl

end Sys2Proof.Machine
end

