-- ==== Sys2Proof/Laws/Pack.lean ====
section
/-! SUPPORT. What the packer's operations do: the checks, the two writes and the cursor, and a byte of ENCODE. -/

namespace Sys2Proof.Machine

/-! ### Bits -/

theorem even_iff (o : BitVec 3) : o.getLsbD 0 = false ↔ o.toNat % 2 = 0 := by revert o; decide

theorem even_cases {o : BitVec 3} (h : o.getLsbD 0 = false) : o = 0 ∨ o = 2 ∨ o = 4 ∨ o = 6 := by
  revert o; decide

theorem packFirst_bit (sym : Symbol) (o : BitVec 3) {j : Nat} (hj : j < 8) :
    (packFirst sym o).getLsbD j = (decide (o.toNat ≤ j) && sym.getLsbD (j - o.toNat)) := by
  unfold packFirst
  rw [BitVec.getLsbD_setWidth, BitVec.getLsbD_shiftLeft]
  by_cases h : o.toNat ≤ j
  · simp [hj, h, show j < 10 by omega, show ¬ j < o.toNat by omega]
  · simp [h, show j < o.toNat by omega]

theorem packSecond_bit (sym : Symbol) (o : BitVec 3) {j : Nat} (hj : j < 8) :
    (packSecond sym o).getLsbD j = sym.getLsbD (8 - o.toNat + j) := by
  unfold packSecond
  rw [BitVec.getLsbD_setWidth, BitVec.getLsbD_ushiftRight]
  simp [hj]

theorem packFirst_eq (sym : Symbol) (o : BitVec 3) :
    packFirst sym o = BitVec.ofNat 8 (sym.toNat * 2 ^ o.toNat) := by
  apply BitVec.eq_of_toNat_eq
  simp only [packFirst, BitVec.toNat_setWidth, BitVec.toNat_shiftLeft, BitVec.toNat_ofNat, Nat.shiftLeft_eq]
  exact Nat.mod_mod_of_dvd _ (by decide)

theorem packSecond_eq (sym : Symbol) (o : BitVec 3) :
    packSecond sym o = BitVec.ofNat 8 (sym.toNat / 2 ^ (8 - o.toNat)) := by
  apply BitVec.eq_of_toNat_eq
  simp only [packSecond, BitVec.toNat_setWidth, BitVec.toNat_ushiftRight, BitVec.toNat_ofNat, Nat.shiftRight_eq_div_pow]

/-! ### The cursor -/

theorem nextBitOff_eq (o : BitVec 3) : nextBitOff o = BitVec.ofNat 3 ((o.toNat + 10) % 8) := by revert o; decide

theorem nextBitOff_even {o : BitVec 3} (h : o.getLsbD 0 = false) : (nextBitOff o).getLsbD 0 = false := by
  revert o; decide

theorem pastSymbol_even {c : Context} (h : c.bitOff.getLsbD 0 = false) : c.pastSymbol.bitOff.getLsbD 0 = false :=
  nextBitOff_even h

/-- The cursor moves by exactly ten bits (R37, R143). -/
theorem pastSymbol_cursorBit {c : Context} (h : c.bitOff.getLsbD 0 = false) :
    c.pastSymbol.cursorBit = c.cursorBit + 10 := by
  have key : ∀ o : BitVec 3, o.getLsbD 0 = false →
      (if nextBitOff o = 0 then 8 else 0) + (nextBitOff o).toNat = o.toNat + 2 := by decide
  have := key c.bitOff h
  simp only [Context.cursorBit, Context.pastSymbol, nextBytePos]
  split at this <;> simp_all <;> omega

/-- The cursor as two numbers, from its bit number. -/
theorem cursorBit_split (c : Context) : c.bytePos = c.cursorBit / 8 ∧ c.bitOff = BitVec.ofNat 3 (c.cursorBit % 8) := by
  have h := c.bitOff.isLt
  refine ⟨by unfold Context.cursorBit; omega, BitVec.eq_of_toNat_eq ?_⟩
  unfold Context.cursorBit
  rw [BitVec.toNat_ofNat]
  omega

/-- There is room for one symbol exactly where ten more bits fit in the buffer. -/
theorem room_iff {c : Context} {len : Nat} (h : c.bitOff.getLsbD 0 = false) :
    c.bytePos + 1 < len ↔ c.cursorBit + 10 ≤ 8 * len := by
  have h6 : c.bitOff.toNat ≤ 6 := by rcases even_cases h with h | h | h | h <;> rw [h] <;> decide
  unfold Context.cursorBit
  omega

/-! ### The checks -/

theorem packRoom_ok {n : Nat} {s : State} {buf : Nat} (h : packRoom n s = .ok buf) :
    ∃ len, (s.ctx n).outSel = .bound buf len ∧ (s.ctx n).bytePos + 1 < len ∧ (s.ctx n).bitOff.getLsbD 0 = false := by
  unfold packRoom at h
  split at h
  · cases h
  · rename_i b len hb
    split at h
    · cases h
    · split at h
      · cases h
      · cases h
        exact ⟨len, hb, by omega, by simp_all⟩

theorem packRoom_of_room {n : Nat} {s : State} {buf len : Nat} (hb : (s.ctx n).outSel = .bound buf len)
    (hr : (s.ctx n).bytePos + 1 < len) (he : (s.ctx n).bitOff.getLsbD 0 = false) : packRoom n s = .ok buf := by
  unfold packRoom
  rw [hb]
  simp only
  rw [if_neg (by omega), if_neg (by rw [he]; decide)]

/-- A failed check is a fault that leaves the state it was made in: `NoOutput` where nothing is bound, `OutputOverrun`
where the second byte does not exist, and otherwise an odd offset. -/
theorem packRoom_error {n : Nat} {s : State} {f : Fault} (h : packRoom n s = .error f) :
    (f = .contractViolation .noOutput s ∧ (s.ctx n).outSel = .unbound) ∨
      (∃ buf len, f = .contractViolation .outputOverrun s ∧ (s.ctx n).outSel = .bound buf len ∧
        len ≤ (s.ctx n).bytePos + 1) ∨
      (f = .oddBitOffset s ∧ (s.ctx n).bitOff.getLsbD 0 = true) := by
  unfold packRoom at h
  split at h
  · cases h
    exact .inl ⟨rfl, by assumption⟩
  · rename_i b len hb
    split at h
    · cases h
      exact .inr (.inl ⟨b, len, rfl, hb, by omega⟩)
    · split at h
      · cases h
        exact .inr (.inr ⟨rfl, by assumption⟩)
      · cases h

theorem packRoom_unbound {n : Nat} {s : State} (h : (s.ctx n).outSel = .unbound) :
    packRoom n s = .error (.contractViolation .noOutput s) := by
  unfold packRoom
  rw [h]

theorem packRoom_full {n : Nat} {s : State} {buf len : Nat} (hb : (s.ctx n).outSel = .bound buf len)
    (hr : len ≤ (s.ctx n).bytePos + 1) : packRoom n s = .error (.contractViolation .outputOverrun s) := by
  unfold packRoom
  rw [hb]
  simp only
  rw [if_pos hr]

/-- The checks look at the named context alone. -/
theorem packRoom_congr {n : Nat} {s t : State} {buf : Nat} (h : t.ctx n = s.ctx n) (hs : packRoom n s = .ok buf) :
    packRoom n t = .ok buf := by
  obtain ⟨len, hb, hr, he⟩ := packRoom_ok hs
  exact packRoom_of_room (len := len) (h ▸ hb) (h ▸ hr) (h ▸ he)

/-! ### One symbol -/

section append
variable (n buf : Nat) (sym : Symbol) (s : State)

@[simp] theorem appendSymbol_config : (appendSymbol n buf sym s).config = s.config := rfl
@[simp] theorem appendSymbol_pending : (appendSymbol n buf sym s).pending = s.pending := rfl
@[simp] theorem appendSymbol_reply : (appendSymbol n buf sym s).reply = s.reply := rfl
@[simp] theorem appendSymbol_ctx_same : (appendSymbol n buf sym s).ctx n = (s.ctx n).pastSymbol := setCtx_ctx_same _ _ _

theorem appendSymbol_ctx_other {m n : Nat} (h : m ≠ n) : (appendSymbol n buf sym s).ctx m = s.ctx m :=
  setCtx_ctx_other _ _ h

/-- Two bytes of memory are OR-ed into, and no other is touched (R57). -/
theorem appendSymbol_read (x : Nat) : (appendSymbol n buf sym s).read x =
    if x = buf + (s.ctx n).bytePos then s.read x ||| packFirst sym (s.ctx n).bitOff
    else if x = buf + (s.ctx n).bytePos + 1 then s.read x ||| packSecond sym (s.ctx n).bitOff
    else s.read x := by
  unfold appendSymbol
  simp only [setCtx_read, orByte_read]
  by_cases h1 : x = buf + (s.ctx n).bytePos
  · subst h1
    rw [if_neg (by omega), if_pos rfl, if_pos rfl]
  · by_cases h2 : x = buf + (s.ctx n).bytePos + 1
    · subst h2
      rw [if_pos rfl, if_neg (by omega), if_neg h1, if_pos rfl]
    · rw [if_neg h2, if_neg h1, if_neg h1, if_neg h2]

theorem appendSymbol_wf (hm : Memory.wf s.mem) : Memory.wf (appendSymbol n buf sym s).mem :=
  orByte_wf _ _ (orByte_wf _ _ hm)

theorem appendSymbol_ctxs_wf (hc : Contexts.wf s.ctxs) : Contexts.wf (appendSymbol n buf sym s).ctxs :=
  setCtx_wf _ _ hc

/-- As a stream: bit `j` of the symbol is OR-ed into the `j`-th stream bit from the cursor on, and no other stream bit
changes (R53, R54). -/
theorem appendSymbol_streamBit (he : (s.ctx n).bitOff.getLsbD 0 = false) (i : Nat) :
    (appendSymbol n buf sym s).streamBit buf i = (s.streamBit buf i ||
      (decide ((s.ctx n).cursorBit ≤ i ∧ i < (s.ctx n).cursorBit + 10) &&
        sym.getLsbD (i - (s.ctx n).cursorBit))) := by
  have h6 : (s.ctx n).bitOff.toNat ≤ 6 := by rcases even_cases he with h | h | h | h <;> rw [h] <;> decide
  have h8 : i % 8 < 8 := Nat.mod_lt _ (by decide)
  unfold State.streamBit
  rw [appendSymbol_read]
  generalize hp : (s.ctx n).bytePos = p
  generalize ho : (s.ctx n).bitOff = o at *
  have hc : (s.ctx n).cursorBit = 8 * p + o.toNat := by rw [Context.cursorBit, hp, ho]
  rw [hc]
  by_cases h1 : i / 8 = p
  · rw [if_pos (by omega), BitVec.getLsbD_or, packFirst_bit _ _ h8]
    congr 1
    have : i - (8 * p + o.toNat) = i % 8 - o.toNat := by omega
    rw [this]
    congr 1
    exact decide_eq_decide.mpr (by omega)
  · by_cases h2 : i / 8 = p + 1
    · rw [if_neg (by omega), if_pos (by omega), BitVec.getLsbD_or, packSecond_bit _ _ h8]
      congr 1
      have : i - (8 * p + o.toNat) = 8 - o.toNat + i % 8 := by omega
      rw [this]
      by_cases h3 : i < 8 * p + o.toNat + 10
      · rw [decide_eq_true (by omega), Bool.true_and]
      · rw [decide_eq_false (by omega), Bool.false_and]
        exact BitVec.getLsbD_of_ge _ _ (by omega)
    · rw [if_neg (by omega), if_neg (by omega), decide_eq_false (by omega), Bool.false_and, Bool.or_false]

end append

/-! ### One byte of ENCODE -/

/-- The state one byte of ENCODE leaves. -/
def afterByte (n buf : Nat) (b : Byte) (s : State) : State :=
  let r := encodeSymbol s.config (s.ctx n).rd b
  appendSymbol n buf r.1 (s.setRd n r.2)

theorem encodeByte_ok {n : Nat} {b : Byte} {s t : State} (h : encodeByte n b s = .ok t) :
    ∃ buf, packRoom n s = .ok buf ∧ t = afterByte n buf b s := by
  unfold encodeByte at h
  split at h
  · cases h
  · rename_i buf hb
    cases h
    exact ⟨buf, hb, rfl⟩

theorem encodeByte_error {n : Nat} {b : Byte} {s : State} {f : Fault} (h : encodeByte n b s = .error f) :
    packRoom n s = .error f := by
  unfold encodeByte at h
  split at h
  · cases h
    assumption
  · cases h

theorem encodeByte_of_room {n : Nat} {b : Byte} {s : State} {buf : Nat} (h : packRoom n s = .ok buf) :
    encodeByte n b s = .ok (afterByte n buf b s) := by
  unfold encodeByte
  rw [h]
  rfl

section afterByte
variable (n buf : Nat) (b : Byte) (s : State)

@[simp] theorem afterByte_config : (afterByte n buf b s).config = s.config := rfl
@[simp] theorem afterByte_pending : (afterByte n buf b s).pending = s.pending := rfl
@[simp] theorem afterByte_reply : (afterByte n buf b s).reply = s.reply := rfl

theorem afterByte_ctx_same : (afterByte n buf b s).ctx n =
    { (s.ctx n).pastSymbol with rd := (encodeSymbol s.config (s.ctx n).rd b).2 } := by
  unfold afterByte
  simp only [appendSymbol_ctx_same, setRd_ctx_same]
  rfl

theorem afterByte_ctx_other {m n : Nat} (h : m ≠ n) : (afterByte n buf b s).ctx m = s.ctx m :=
  (appendSymbol_ctx_other _ _ _ h).trans (setRd_ctx_other _ _ h)

theorem afterByte_read (x : Nat) : (afterByte n buf b s).read x =
    if x = buf + (s.ctx n).bytePos then
      s.read x ||| packFirst (encodeSymbol s.config (s.ctx n).rd b).1 (s.ctx n).bitOff
    else if x = buf + (s.ctx n).bytePos + 1 then
      s.read x ||| packSecond (encodeSymbol s.config (s.ctx n).rd b).1 (s.ctx n).bitOff
    else s.read x := by
  unfold afterByte
  simp only [appendSymbol_read, setRd_ctx_same, setRd_read]

theorem afterByte_streamBit (he : (s.ctx n).bitOff.getLsbD 0 = false) (i : Nat) :
    (afterByte n buf b s).streamBit buf i = (s.streamBit buf i ||
      (decide ((s.ctx n).cursorBit ≤ i ∧ i < (s.ctx n).cursorBit + 10) &&
        (encodeSymbol s.config (s.ctx n).rd b).1.getLsbD (i - (s.ctx n).cursorBit))) := by
  unfold afterByte
  have he' : ((s.setRd n (encodeSymbol s.config (s.ctx n).rd b).2).ctx n).bitOff.getLsbD 0 = false := by
    rw [setRd_ctx_same]
    exact he
  rw [appendSymbol_streamBit _ _ _ _ he', setRd_ctx_same]
  rfl

end afterByte

/-! ### The loop of ENCODE -/

/-- The loop over a joined sequence is the loop over its parts (R146). -/
theorem encodeBytes_append (n : Nat) (xs ys : List Byte) (s : State) :
    encodeBytes n (xs ++ ys) s = (encodeBytes n xs s).bind (encodeBytes n ys) := by
  induction xs generalizing s with
  | nil => rfl
  | cons x xs ih =>
    simp only [List.cons_append, encodeBytes]
    cases encodeByte n x s with
    | error f => rfl
    | ok t => exact ih t

/-- What every byte of ENCODE keeps, the loop keeps, both where it completes and in what a fault leaves. -/
theorem encodeBytes_keeps {n : Nat} {P : State → Prop}
    (step : ∀ s b t, P s → encodeByte n b s = .ok t → P t) (xs : List Byte) {s : State} (hs : P s) :
    (∀ t, encodeBytes n xs s = .ok t → P t) ∧ (∀ f, encodeBytes n xs s = .error f → P f.left) := by
  induction xs generalizing s with
  | nil =>
    refine ⟨fun t h => ?_, fun f h => ?_⟩
    · cases h
      exact hs
    · cases h
  | cons x xs ih =>
    simp only [encodeBytes]
    cases hx : encodeByte n x s with
    | error f =>
      refine ⟨fun t h => ?_, fun g h => ?_⟩
      · cases h
      cases h
      rcases packRoom_error (encodeByte_error hx) with ⟨rfl, _⟩ | ⟨_, _, rfl, _⟩ | ⟨rfl, _⟩ <;> exact hs
    | ok t => exact ih (step s x t hs hx)

end Sys2Proof.Machine
end

