-- ==== Sys2Proof/Laws/Unpack.lean ====
section
/-! SUPPORT. The unpacker: what the accumulator holds, so that DECODE's loop over bits is a loop over symbols (43_stream_unpacker.md
R179), and what one store does. -/

namespace Sys2Proof.Machine

/-! ### UNPACK10 -/

theorem streamBit_of_byte (bs : List Byte) (i : Nat) {j : Nat} (hj : j < 8) :
    (inputByte bs i).getLsbD j = streamBit bs (8 * i + j) := by
  unfold streamBit
  rw [show (8 * i + j) / 8 = i by omega, show (8 * i + j) % 8 = j by omega]

/-- Bit `j` of the `k`-th symbol is stream bit `10 k + j` (R179). -/
theorem unpackSymbol_bit (bs : List Byte) (k : Nat) {j : Nat} (hj : j < 10) :
    (unpackSymbol bs k).getLsbD j = streamBit bs (10 * k + j) := by
  simp only [unpackSymbol, BitVec.getLsbD_setWidth, BitVec.getLsbD_ushiftRight, hj, decide_true, Bool.true_and]
  rw [BitVec.getLsbD_append]
  unfold streamBit
  have hq : 10 * k % 8 < 8 := Nat.mod_lt _ (by decide)
  by_cases h : 10 * k % 8 + j < 8
  · rw [if_pos h, show (10 * k + j) / 8 = 10 * k / 8 by omega, show (10 * k + j) % 8 = 10 * k % 8 + j by omega]
  · have h16 : 10 * k % 8 ≤ 6 := by omega
    rw [if_neg h, show (10 * k + j) / 8 = 10 * k / 8 + 1 by omega,
      show (10 * k + j) % 8 = 10 * k % 8 + j - 8 by omega]

theorem symbol_ext {x y : Symbol} (h : ∀ j, j < 10 → x.getLsbD j = y.getLsbD j) : x = y :=
  BitVec.eq_of_getLsbD_eq fun j hj => h j hj

/-! ### The accumulator (R173, R186) -/

/-- The accumulator holds, from bit 0 on, the stream bits after the first `k` symbols, `filled` of them, and zeros
above; `filled + consumed = 8 idx`. -/
structure DecodeLocal.Holds (bs : List Byte) (k : Nat) (l : DecodeLocal) : Prop where
  consumed : l.consumed = 10 * k
  count : l.filled + 10 * k = 8 * l.idx
  bits : ∀ j, l.acc.getLsbD j = (decide (j < l.filled) && streamBit bs (10 * k + j))

theorem holds_start (bs : List Byte) : DecodeLocal.start.Holds bs 0 :=
  ⟨rfl, rfl, fun j => by simp [DecodeLocal.start]⟩

theorem fillOnce_filled {bs : List Byte} {l : DecodeLocal} (h : l.filled < 10) :
    (l.fillOnce bs).filled = l.filled + 8 := by
  unfold DecodeLocal.fillOnce
  rw [if_pos h]

theorem fillOnce_full {bs : List Byte} {l : DecodeLocal} (h : 10 ≤ l.filled) : l.fillOnce bs = l := by
  unfold DecodeLocal.fillOnce
  rw [if_neg (by omega)]

theorem holds_fillOnce {bs : List Byte} {k : Nat} {l : DecodeLocal} (h : l.Holds bs k) (h8 : l.filled ≤ 8) :
    (l.fillOnce bs).Holds bs k := by
  unfold DecodeLocal.fillOnce
  rw [if_pos (by omega)]
  refine ⟨h.consumed, ?_, fun j => ?_⟩
  · have := h.count
    simp only
    omega
  · simp only [BitVec.getLsbD_or, BitVec.getLsbD_shiftLeft, BitVec.getLsbD_setWidth, h.bits]
    have hc := h.count
    by_cases h1 : j < l.filled
    · simp [h1, show j < l.filled + 8 by omega]
    · by_cases h2 : j < l.filled + 8
      · rw [streamBit_of_byte bs l.idx (by omega), show 8 * l.idx + (j - l.filled) = 10 * k + j by omega]
        simp [h1, h2, show j < 16 by omega, show j - l.filled < 16 by omega]
      · have : (inputByte bs l.idx).getLsbD (j - l.filled) = false := BitVec.getLsbD_of_ge _ _ (by omega)
        simp [h1, h2, this]

/-- After step 1 the ten bits of a symbol are there (R173). -/
theorem holds_fill {bs : List Byte} {k : Nat} {l : DecodeLocal} (h : l.Holds bs k) (h6 : l.filled ≤ 6) :
    (l.fill bs).Holds bs k ∧ 10 ≤ (l.fill bs).filled ∧ (l.fill bs).filled ≤ 16 := by
  have h1 := holds_fillOnce h (by omega)
  have hf : (l.fillOnce bs).filled = l.filled + 8 := fillOnce_filled (by omega)
  have hc := h.count
  unfold DecodeLocal.fill
  by_cases h0 : l.filled = 0
  · have h2 : ((l.fillOnce bs).fillOnce bs).filled = (l.fillOnce bs).filled + 8 := fillOnce_filled (by omega)
    exact ⟨holds_fillOnce h1 (by omega), by omega, by omega⟩
  · rw [fillOnce_full (by omega)]
    exact ⟨h1, by omega, by omega⟩

/-- The symbol extracted in turn `k` is the `k`-th of the input (R174, R179). -/
theorem front_fill {bs : List Byte} {k : Nat} {l : DecodeLocal} (h : l.Holds bs k) (h6 : l.filled ≤ 6) :
    (l.fill bs).front = unpackSymbol bs k := by
  obtain ⟨hf, h10, _⟩ := holds_fill h h6
  refine symbol_ext fun j hj => ?_
  rw [unpackSymbol_bit bs k hj, DecodeLocal.front, BitVec.getLsbD_setWidth, hf.bits]
  simp [hj, show j < (l.fill bs).filled by omega]

/-- Consuming a symbol leaves the accumulator as the next turn needs it (R176, R186). -/
theorem holds_consume {bs : List Byte} {k : Nat} {l : DecodeLocal} (h : l.Holds bs k) (h6 : l.filled ≤ 6) :
    (l.fill bs).consume.Holds bs (k + 1) ∧ (l.fill bs).consume.filled ≤ 6 := by
  obtain ⟨hf, h10, h16⟩ := holds_fill h h6
  have hc := hf.count
  refine ⟨⟨?_, ?_, fun j => ?_⟩, ?_⟩
  · show (l.fill bs).consumed + 10 = _
    rw [hf.consumed]
    omega
  · show (l.fill bs).filled - 10 + 10 * (k + 1) = 8 * (l.fill bs).idx
    omega
  · show ((l.fill bs).acc >>> 10).getLsbD j = (decide (j < (l.fill bs).filled - 10) && _)
    rw [BitVec.getLsbD_ushiftRight, hf.bits, show 10 * k + (10 + j) = 10 * (k + 1) + j by omega]
    congr 1
    exact decide_eq_decide.mpr (by omega)
  · show (l.fill bs).filled - 10 ≤ 6
    omega

/-- Every input byte a turn reads is inside the input, where the bits asked for are (R61, R180). -/
theorem fill_reads_inside {bs : List Byte} {k : Nat} {l : DecodeLocal} (h : l.Holds bs k) (h6 : l.filled ≤ 6)
    (hin : 10 * (k + 1) ≤ 8 * bs.length) : (l.fill bs).idx ≤ bs.length := by
  obtain ⟨hf, h10, h16⟩ := holds_fill h h6
  have hc := hf.count
  have hc0 := h.count
  omega

/-! ### DECODE over symbols -/

/-- DECODE's loop on a list of symbols. -/
def decodeSyms (n : Nat) : List Symbol → State → Result
  | [], s => s.answer .ok
  | sym :: syms, s =>
    match decodeSymbol s.config.tables sym with
    | none => endWithCodeViolation s
    | some b =>
      match storeDecoded n b s with
      | .error f => .fault f
      | .ok s' => decodeSyms n syms s'

/-- R179: the loop over the accumulator is the loop over the symbols of the input. -/
theorem decodeLoop_eq (n : Nat) (bs : List Byte) (m : Nat) {k : Nat} {l : DecodeLocal} (h : l.Holds bs k)
    (h6 : l.filled ≤ 6) (s : State) :
    decodeLoop n bs m l s = decodeSyms n ((List.range' k m).map (unpackSymbol bs)) s := by
  induction m generalizing k l s with
  | zero => rfl
  | succ m ih =>
    obtain ⟨hn, hn6⟩ := holds_consume h h6
    rw [List.range'_succ, List.map_cons]
    simp only [decodeLoop, decodeSyms, front_fill h h6]
    cases decodeSymbol s.config.tables (unpackSymbol bs k) with
    | none => rfl
    | some b =>
      simp only
      cases storeDecoded n b s with
      | error f => rfl
      | ok t => exact ih hn hn6 t

theorem decodeLoop_start (n : Nat) (bs : List Byte) (m : Nat) (s : State) :
    decodeLoop n bs m .start s = decodeSyms n (unpackSymbols bs m) s := by
  rw [decodeLoop_eq n bs m (holds_start bs) (by decide), unpackSymbols, List.range_eq_range']

/-! ### One store -/

/-- The state one store leaves (R176). -/
def afterStore (n buf : Nat) (b : Byte) (s : State) : State :=
  (s.write (buf + (s.ctx n).bytePos) b).setCtx n { s.ctx n with bytePos := (s.ctx n).bytePos + 1 }

theorem storeDecoded_ok {n : Nat} {b : Byte} {s t : State} (h : storeDecoded n b s = .ok t) :
    ∃ buf len, (s.ctx n).outSel = .bound buf len ∧ (s.ctx n).bytePos < len ∧ t = afterStore n buf b s := by
  unfold storeDecoded at h
  split at h
  · cases h
  · rename_i buf len hb
    split at h
    · cases h
    · cases h
      exact ⟨buf, len, hb, by omega, rfl⟩

theorem storeDecoded_of_room {n : Nat} {b : Byte} {s : State} {buf len : Nat}
    (hb : (s.ctx n).outSel = .bound buf len) (hr : (s.ctx n).bytePos < len) :
    storeDecoded n b s = .ok (afterStore n buf b s) := by
  unfold storeDecoded
  rw [hb]
  simp only
  rw [if_neg (by omega)]
  rfl

theorem storeDecoded_unbound {n : Nat} {b : Byte} {s : State} (h : (s.ctx n).outSel = .unbound) :
    storeDecoded n b s = .error (.contractViolation .noOutput s) := by
  unfold storeDecoded
  rw [h]

theorem storeDecoded_full {n : Nat} {b : Byte} {s : State} {buf len : Nat}
    (hb : (s.ctx n).outSel = .bound buf len) (hr : len ≤ (s.ctx n).bytePos) :
    storeDecoded n b s = .error (.contractViolation .outputOverrun s) := by
  unfold storeDecoded
  rw [hb]
  simp only
  rw [if_pos hr]

/-- A failed store is a fault that leaves the state it was tried in. -/
theorem storeDecoded_error {n : Nat} {b : Byte} {s : State} {f : Fault} (h : storeDecoded n b s = .error f) :
    f = .contractViolation .noOutput s ∨ f = .contractViolation .outputOverrun s := by
  unfold storeDecoded at h
  split at h
  · cases h
    exact .inl rfl
  · split at h
    · cases h
      exact .inr rfl
    · cases h

section afterStore
variable (n buf : Nat) (b : Byte) (s : State)

@[simp] theorem afterStore_config : (afterStore n buf b s).config = s.config := rfl
@[simp] theorem afterStore_pending : (afterStore n buf b s).pending = s.pending := rfl
@[simp] theorem afterStore_reply : (afterStore n buf b s).reply = s.reply := rfl

theorem afterStore_ctx_same :
    (afterStore n buf b s).ctx n = { s.ctx n with bytePos := (s.ctx n).bytePos + 1 } := setCtx_ctx_same _ _ _

theorem afterStore_ctx_other {m n : Nat} (h : m ≠ n) : (afterStore n buf b s).ctx m = s.ctx m :=
  setCtx_ctx_other _ _ h

theorem afterStore_read (x : Nat) :
    (afterStore n buf b s).read x = if x = buf + (s.ctx n).bytePos then b else s.read x := write_read _ _ _ _

end afterStore

/-- What every store keeps, DECODE keeps up to the reply, both where it completes and in what a fault leaves. -/
theorem decodeSyms_keeps {n : Nat} {P : State → Prop} (step : ∀ s b t, P s → storeDecoded n b s = .ok t → P t)
    (reply : ∀ s r, P s → P (s.withReply r)) (syms : List Symbol) {s : State} (hs : P s) :
    (∀ t, decodeSyms n syms s = .next t → P t) ∧ (∀ f, decodeSyms n syms s = .fault f → P f.left) ∧
      ∀ r, decodeSyms n syms s ≠ .refused r := by
  induction syms generalizing s with
  | nil =>
    refine ⟨fun t h => ?_, fun f h => ?_, fun r h => ?_⟩
    · cases h
      exact reply s .ok hs
    · cases h
    · cases h
  | cons sym syms ih =>
    simp only [decodeSyms]
    cases decodeSymbol s.config.tables sym with
    | none =>
      refine ⟨fun t h => ?_, fun f h => ?_, fun r h => ?_⟩
      · cases h
        exact reply s .codeViolation hs
      · cases h
      · cases h
    | some b =>
      simp only
      cases hb : storeDecoded n b s with
      | error f =>
        refine ⟨fun t h => ?_, fun g h => ?_, fun r h => ?_⟩
        · cases h
        · cases h
          rcases storeDecoded_error hb with rfl | rfl <;> exact hs
        · cases h
      | ok t => exact ih (step s b t hs hb)

end Sys2Proof.Machine
end

