-- ==== Sys2Proof/Laws/Exec.lean ====
section
/-! SUPPORT. Once for all commands: what a command can do to the state, as a sequence of elementary changes; the
whole-machine rules follow by looking at one change. -/

namespace Sys2Proof.Machine

theorem whenReady_ready {n : Nat} {s : State} {run : Context → Result} (h : (s.ctx n).life = .ready) :
    whenReady n s run = run (s.ctx n) := by
  unfold whenReady
  rw [if_neg (by rw [h]; decide)]

theorem whenReady_uninit {n : Nat} {s : State} {run : Context → Result} (h : (s.ctx n).life = .uninit) :
    whenReady n s run = .fault (.contractViolation .notInitialized s) := if_pos h

theorem whenReady_cases {n : Nat} {s : State} {run : Context → Result} {o : Result} (h : whenReady n s run = o) :
    ((s.ctx n).life = .uninit ∧ o = .fault (.contractViolation .notInitialized s)) ∨
      ((s.ctx n).life = .ready ∧ run (s.ctx n) = o) := by
  cases hl : (s.ctx n).life with
  | uninit => exact .inl ⟨rfl, by rw [← h, whenReady_uninit hl]⟩
  | ready => exact .inr ⟨rfl, by rw [← h, whenReady_ready hl]⟩

/-! ### Each command past its checks -/

section past
variable {n : Nat} {s : State}

theorem exec_init : exec (.init n) s = .next ((s.setCtx n Context.afterInit).withReply .done) := rfl

theorem exec_setout {buf len : Nat} (hr : (s.ctx n).life = .ready) : exec (.setout n buf len) s =
    .next ((s.setCtx n { s.ctx n with outSel := .bound buf len, bytePos := 0, bitOff := 0 }).withReply .done) := by
  rw [exec, execSetout, whenReady_ready hr]
  rfl

theorem exec_enc6 {v : Nat} (hr : (s.ctx n).life = .ready) (hv : v < 32) :
    exec (.enc6 n v) s =
      .next ((s.setRd n ((s.ctx n).rd.toggle (s.config.tables.enc6At (BitVec.ofNat 5 v)).togglesDisparity)).withReply
        (.code6 (subOut (s.config.tables.enc6At (BitVec.ofNat 5 v)) (s.ctx n).rd))) := by
  rw [exec, execEnc6, whenReady_ready hr, if_neg (by omega)]
  rfl

theorem exec_enc4 {v : Nat} (hr : (s.ctx n).life = .ready) (hv : v < 8) :
    exec (.enc4 n v) s =
      .next ((s.setRd n ((s.ctx n).rd.toggle (s.config.tables.enc4At (BitVec.ofNat 3 v)).togglesDisparity)).withReply
        (.code4 (subOut (s.config.tables.enc4At (BitVec.ofNat 3 v)) (s.ctx n).rd))) := by
  rw [exec, execEnc4, whenReady_ready hr, if_neg (by omega)]
  rfl

theorem exec_encsym {b : Byte} (hr : (s.ctx n).life = .ready) : exec (.encsym n b) s =
    .next ((s.setRd n (encodeSymbol s.config (s.ctx n).rd b).2).withReply
      (.symbol (encodeSymbol s.config (s.ctx n).rd b).1)) := by
  rw [exec, execEncsym, whenReady_ready hr]
  rfl

theorem exec_pack10 {sym : Symbol} {buf : Nat} (hr : (s.ctx n).life = .ready) (hp : packRoom n s = .ok buf) :
    exec (.pack10 n sym) s = .next ((appendSymbol n buf sym s).withReply .done) := by
  rw [exec, execPack10, whenReady_ready hr, hp]
  rfl

theorem exec_pack10_error {sym : Symbol} {f : Fault} (hr : (s.ctx n).life = .ready) (hp : packRoom n s = .error f) :
    exec (.pack10 n sym) s = .fault f := by
  rw [exec, execPack10, whenReady_ready hr, hp]

theorem exec_encode {inp : Input} {t : State} (hr : (s.ctx n).life = .ready)
    (ho : inputOverlaps inp (s.ctx n).outSel = false) (h : encodeBytes n (s.inputBytes inp) s = .ok t) :
    exec (.encode n inp) s = .next (t.withReply .done) := by
  rw [exec, execEncode, whenReady_ready hr, if_neg (by rw [ho]; decide), h]
  rfl

theorem exec_encode_error {inp : Input} {f : Fault} (hr : (s.ctx n).life = .ready)
    (ho : inputOverlaps inp (s.ctx n).outSel = false) (h : encodeBytes n (s.inputBytes inp) s = .error f) :
    exec (.encode n inp) s = .fault f := by
  rw [exec, execEncode, whenReady_ready hr, if_neg (by rw [ho]; decide), h]

/-- ENCODE ends normally only on a ready context, with no overlap, through its loop. -/
theorem exec_encode_next {inp : Input} {t : State} (h : exec (.encode n inp) s = .next t) :
    (s.ctx n).life = .ready ∧ inputOverlaps inp (s.ctx n).outSel = false ∧
      ∃ u, encodeBytes n (s.inputBytes inp) s = .ok u ∧ t = u.withReply .done := by
  rw [exec, execEncode] at h
  rcases whenReady_cases h with ⟨_, h⟩ | ⟨hr, h⟩
  · cases h
  · split at h <;> rename_i ho
    · cases h
    · cases hb : encodeBytes n (s.inputBytes inp) s with
      | error f =>
        rw [hb] at h
        cases h
      | ok u =>
        rw [hb] at h
        cases h
        exact ⟨hr, Bool.eq_false_iff.mpr ho, u, rfl, rfl⟩

theorem exec_dec6 {c : Nat} (hc : c < 64) : exec (.dec6 c) s =
    .next (s.withReply (.low (s.config.tables.dec6At (BitVec.ofNat 6 c)))) := by
  rw [exec, execDec6, if_neg (by omega)]
  rfl

theorem exec_dec4 {c : Nat} (hc : c < 16) : exec (.dec4 c) s =
    .next (s.withReply (.high (s.config.tables.dec4At (BitVec.ofNat 4 c)))) := by
  rw [exec, execDec4, if_neg (by omega)]
  rfl

theorem exec_decsym {sym : Symbol} :
    exec (.decsym sym) s = .next (s.withReply (.byte (decodeSymbol s.config.tables sym))) := rfl

theorem exec_unpack10 {inp : Input} {k : Nat} (h : 10 * k + 10 ≤ 8 * (s.inputBytes inp).length) :
    exec (.unpack10 inp k) s = .next (s.withReply (.symbol (unpackSymbol (s.inputBytes inp) k))) := by
  rw [exec, execUnpack10, if_neg (by omega)]
  rfl

theorem exec_decode {inp : Input} {l : Nat} (hr : (s.ctx n).life = .ready)
    (ho : inputOverlaps inp (s.ctx n).outSel = false) (h10 : l % 10 = 0) (hl : l ≤ 8 * (s.inputBytes inp).length) :
    exec (.decode n inp l) s = decodeSyms n (unpackSymbols (s.inputBytes inp) (l / 10)) s := by
  rw [exec, execDecode, whenReady_ready hr, if_neg (by rw [ho]; decide), if_neg (by omega), if_neg (by omega),
    decodeLoop_start]

end past

/-! ### Elementary changes -/

/-- One elementary change a command may make. -/
inductive Change : Instr → State → State → Prop where
  | reply (i : Instr) (s : State) (r : Reply) : Change i s (s.withReply r)
  | init (n : Nat) (s : State) : Change (.init n) s (s.setCtx n Context.afterInit)
  | setout (n buf len : Nat) (s : State) (ready : (s.ctx n).life = .ready) :
    Change (.setout n buf len) s (s.setCtx n { s.ctx n with outSel := .bound buf len, bytePos := 0, bitOff := 0 })
  | enc6 (n v : Nat) (s : State) (rd : Disparity) (ready : (s.ctx n).life = .ready) :
    Change (.enc6 n v) s (s.setRd n rd)
  | enc4 (n v : Nat) (s : State) (rd : Disparity) (ready : (s.ctx n).life = .ready) :
    Change (.enc4 n v) s (s.setRd n rd)
  | encsym (n : Nat) (b : Byte) (s : State) (rd : Disparity) (ready : (s.ctx n).life = .ready) :
    Change (.encsym n b) s (s.setRd n rd)
  | pack10 (n : Nat) (sym : Symbol) (s : State) (buf : Nat) (ready : (s.ctx n).life = .ready)
    (room : packRoom n s = .ok buf) : Change (.pack10 n sym) s (appendSymbol n buf sym s)
  | encode (n : Nat) (inp : Input) (s : State) (b : Byte) (buf : Nat) (ready : (s.ctx n).life = .ready)
    (room : packRoom n s = .ok buf) : Change (.encode n inp) s (afterByte n buf b s)
  | decode (n : Nat) (inp : Input) (l : Nat) (s : State) (b : Byte) (buf len : Nat)
    (ready : (s.ctx n).life = .ready) (bound : (s.ctx n).outSel = .bound buf len) (room : (s.ctx n).bytePos < len) :
    Change (.decode n inp l) s (afterStore n buf b s)

/-- Any number of them. -/
abbrev Changes (i : Instr) : State → State → Prop := Relation.ReflTransGen (Change i)

theorem changes_reply (i : Instr) (s : State) (r : Reply) : Changes i s (s.withReply r) := .single (.reply i s r)

theorem leaves_of_raise {i : Instr} {s t : State} {k : ContractViolation} {o : Result} (ho : o = raise k s)
    (h : o = .next t ∨ ∃ f, o = .fault f ∧ f.left = t) : Changes i s t := by
  subst ho
  rcases h with h | ⟨f, h, rfl⟩
  · cases h
  · cases h
    exact .refl

theorem leaves_of_answer {i : Instr} {s t u : State} {r : Reply} {o : Result} (ho : o = u.answer r)
    (hu : Changes i s u) (h : o = .next t ∨ ∃ f, o = .fault f ∧ f.left = t) : Changes i s t := by
  subst ho
  rcases h with h | ⟨f, h, rfl⟩
  · cases h
    exact hu.tail (.reply i u r)
  · cases h

/-- Whatever a command leaves is reached by elementary changes of its own kind. -/
theorem leaves_changes {i : Instr} {s t : State} (h : Leaves i s t) : Changes i s t := by
  unfold Leaves at h
  generalize ho : exec i s = o at h
  cases i with
  | init n => exact leaves_of_answer ho.symm (.single (.init n s)) h
  | setout n buf len =>
    rw [exec, execSetout] at ho
    rcases whenReady_cases ho with ⟨_, ho⟩ | ⟨hr, ho⟩
    · exact leaves_of_raise ho h
    · exact leaves_of_answer ho.symm (.single (.setout n buf len s hr)) h
  | enc6 n v =>
    rw [exec, execEnc6] at ho
    rcases whenReady_cases ho with ⟨_, ho⟩ | ⟨hr, ho⟩
    · exact leaves_of_raise ho h
    · dsimp only at ho
      split at ho
      · exact leaves_of_raise ho.symm h
      · exact leaves_of_answer ho.symm (.single (.enc6 n v s _ hr)) h
  | enc4 n v =>
    rw [exec, execEnc4] at ho
    rcases whenReady_cases ho with ⟨_, ho⟩ | ⟨hr, ho⟩
    · exact leaves_of_raise ho h
    · dsimp only at ho
      split at ho
      · exact leaves_of_raise ho.symm h
      · exact leaves_of_answer ho.symm (.single (.enc4 n v s _ hr)) h
  | encsym n b =>
    rw [exec, execEncsym] at ho
    rcases whenReady_cases ho with ⟨_, ho⟩ | ⟨hr, ho⟩
    · exact leaves_of_raise ho h
    · exact leaves_of_answer ho.symm (.single (.encsym n b s _ hr)) h
  | dec6 c =>
    change (if c > 63 then _ else _) = o at ho
    split at ho
    · exact leaves_of_raise ho.symm h
    · exact leaves_of_answer ho.symm .refl h
  | dec4 c =>
    change (if c > 15 then _ else _) = o at ho
    split at ho
    · exact leaves_of_raise ho.symm h
    · exact leaves_of_answer ho.symm .refl h
  | decsym sym => exact leaves_of_answer ho.symm .refl h
  | unpack10 inp k =>
    change (if 10 * k + 10 > 8 * (s.inputBytes inp).length then _ else _) = o at ho
    split at ho
    · exact leaves_of_raise ho.symm h
    · exact leaves_of_answer ho.symm .refl h
  | pack10 n sym =>
    rw [exec, execPack10] at ho
    rcases whenReady_cases ho with ⟨_, ho⟩ | ⟨hr, ho⟩
    · exact leaves_of_raise ho h
    · cases hp : packRoom n s with
      | error f =>
        simp only [hp] at ho
        subst ho
        rcases h with h | ⟨g, h, rfl⟩ <;> cases h
        rcases packRoom_error hp with ⟨rfl, _⟩ | ⟨_, _, rfl, _⟩ | ⟨rfl, _⟩ <;> exact .refl
      | ok buf =>
        simp only [hp] at ho
        exact leaves_of_answer ho.symm (.single (.pack10 n sym s buf hr hp)) h
  | encode n inp =>
    rw [exec, execEncode] at ho
    rcases whenReady_cases ho with ⟨_, ho⟩ | ⟨hr, ho⟩
    · exact leaves_of_raise ho h
    · split at ho
      · subst ho
        rcases h with h | ⟨g, h, rfl⟩ <;> cases h
      · have keeps := encodeBytes_keeps (n := n)
          (P := fun u => Changes (.encode n inp) s u ∧ (u.ctx n).life = .ready)
          (fun u b v hu hv => by
            obtain ⟨buf, hp, rfl⟩ := encodeByte_ok hv
            exact ⟨hu.1.tail (.encode n inp u b buf hu.2 hp), by rw [afterByte_ctx_same]; exact hu.2⟩)
          (s.inputBytes inp) ⟨.refl, hr⟩
        cases hb : encodeBytes n (s.inputBytes inp) s with
        | error f =>
          simp only [hb] at ho
          subst ho
          rcases h with h | ⟨g, h, rfl⟩ <;> cases h
          exact (keeps.2 f hb).1
        | ok u =>
          simp only [hb] at ho
          exact leaves_of_answer ho.symm (keeps.1 u hb).1 h
  | decode n inp l =>
    rw [exec, execDecode] at ho
    rcases whenReady_cases ho with ⟨_, ho⟩ | ⟨hr, ho⟩
    · exact leaves_of_raise ho h
    · split at ho
      · subst ho
        rcases h with h | ⟨g, h, rfl⟩ <;> cases h
      · split at ho
        · exact leaves_of_raise ho.symm h
        · split at ho
          · exact leaves_of_raise ho.symm h
          · rw [decodeLoop_start] at ho
            have keeps := decodeSyms_keeps (n := n)
              (P := fun u => Changes (.decode n inp l) s u ∧ (u.ctx n).life = .ready)
              (fun u b v hu hv => by
                obtain ⟨buf, len, hb, hl, rfl⟩ := storeDecoded_ok hv
                exact ⟨hu.1.tail (.decode n inp l u b buf len hu.2 hb hl), by
                  rw [afterStore_ctx_same]
                  exact hu.2⟩)
              (fun u r hu => ⟨hu.1.tail (.reply _ u r), hu.2⟩)
              (unpackSymbols (s.inputBytes inp) (l / 10)) ⟨.refl, hr⟩
            subst ho
            rcases h with h | ⟨g, h, rfl⟩
            · exact (keeps.1 t h).1
            · exact (keeps.2.1 g h).1

/-- What every elementary change of a command keeps, the command keeps. -/
theorem leaves_keeps {i : Instr} {P : State → Prop} (h : ∀ s t, P s → Change i s t → P t) {s t : State}
    (hl : Leaves i s t) (hs : P s) : P t := by
  have hc := leaves_changes hl
  clear hl
  induction hc with
  | refl => exact hs
  | tail _ hc ih => exact h _ _ ih hc

theorem leaves_next {i : Instr} {s t : State} (h : exec i s = .next t) : Leaves i s t := .inl h
theorem leaves_fault {i : Instr} {s : State} {f : Fault} (h : exec i s = .fault f) : Leaves i s f.left :=
  .inr ⟨f, h, rfl⟩

end Sys2Proof.Machine
end

