-- ==== Sys2Proof/Laws/Loops.lean ====
section
/-! SUPPORT. The closed forms of the two loops: what ENCODE's loop leaves where there is room (41_stream_packer.md R145,
R147), and what DECODE's loop leaves (43_stream_unpacker.md R179). -/

namespace Sys2Proof.Machine

/-! ### The reply is read by no command -/

theorem encodeBytes_withReply (n : Nat) (r : Reply) (xs : List Byte) (s : State) :
    encodeBytes n xs (s.withReply r) =
      match encodeBytes n xs s with
      | .ok t => .ok (t.withReply r)
      | .error (.contractViolation k t) => .error (.contractViolation k (t.withReply r))
      | .error (.oddBitOffset t) => .error (.oddBitOffset (t.withReply r)) := by
  induction xs generalizing s with
  | nil => rfl
  | cons x xs ih =>
    have hr : packRoom n (s.withReply r) =
        match packRoom n s with
        | .ok buf => .ok buf
        | .error (.contractViolation k t) => .error (.contractViolation k (t.withReply r))
        | .error (.oddBitOffset t) => .error (.oddBitOffset (t.withReply r)) := by
      unfold packRoom
      rw [withReply_ctx]
      cases (s.ctx n).outSel with
      | unbound => rfl
      | bound buf len =>
        simp only
        split
        · rfl
        · split <;> rfl
    simp only [encodeBytes, encodeByte]
    cases hs : packRoom n s with
    | error f => cases f <;> simp only [hr, hs]
    | ok buf =>
      simp only [hr, hs]
      exact ih (appendSymbol n buf _ (s.setRd n _))

/-! ### ENCODE -/

theorem encodeSymbols_length (cfg : Config) (rd : Disparity) (xs : List Byte) :
    (encodeSymbols cfg rd xs).length = xs.length := by
  induction xs generalizing rd with
  | nil => rfl
  | cons x xs ih => exact congrArg (· + 1) (ih _)

/-- Bit `i` of the stream that a list of symbols makes (30_encoding.md R80). -/
def symbolsBit (syms : List Symbol) (i : Nat) : Bool := (syms.getD (i / 10) 0).getLsbD (i % 10)

theorem symbolsBit_cons (sym : Symbol) (syms : List Symbol) (i : Nat) :
    symbolsBit (sym :: syms) i = if i < 10 then sym.getLsbD i else symbolsBit syms (i - 10) := by
  unfold symbolsBit
  by_cases h : i < 10
  · rw [if_pos h, show i / 10 = 0 by omega, show i % 10 = i by omega, List.getD_cons_zero]
  · rw [if_neg h, show i / 10 = (i - 10) / 10 + 1 by omega, show i % 10 = (i - 10) % 10 by omega, List.getD_cons_succ]

/-- What ENCODE's loop leaves from an even cursor with room for ten bits a byte. -/
structure Encoded (n buf : Nat) (xs : List Byte) (s t : State) : Prop where
  ctx : t.ctx n = { s.ctx n with
    rd := encodeDisparity s.config (s.ctx n).rd xs
    bytePos := ((s.ctx n).cursorBit + 10 * xs.length) / 8
    bitOff := BitVec.ofNat 3 (((s.ctx n).cursorBit + 10 * xs.length) % 8) }
  others : ∀ m, m ≠ n → t.ctx m = s.ctx m
  config : t.config = s.config
  pending : t.pending = s.pending
  reply : t.reply = s.reply
  bits : ∀ i, t.streamBit buf i = (s.streamBit buf i ||
    (decide ((s.ctx n).cursorBit ≤ i ∧ i < (s.ctx n).cursorBit + 10 * xs.length) &&
      symbolsBit (encodeSymbols s.config (s.ctx n).rd xs) (i - (s.ctx n).cursorBit)))
  bytes : ∀ a, (xs ≠ [] → a < buf + (s.ctx n).bytePos ∨ buf + ((s.ctx n).cursorBit + 10 * xs.length + 7) / 8 ≤ a) →
    t.read a = s.read a

theorem encodeBytes_run {n buf len : Nat} (xs : List Byte) {s : State} (hb : (s.ctx n).outSel = .bound buf len)
    (he : (s.ctx n).bitOff.getLsbD 0 = false) (hr : (s.ctx n).cursorBit + 10 * xs.length ≤ 8 * len) :
    ∃ t, encodeBytes n xs s = .ok t ∧ Encoded n buf xs s t := by
  induction xs generalizing s with
  | nil =>
    refine ⟨s, rfl, ?_, fun _ _ => rfl, rfl, rfl, rfl, fun i => ?_, fun a _ => rfl⟩
    · have h := cursorBit_split (s.ctx n)
      simp only [encodeDisparity, List.length_nil, Nat.mul_zero, Nat.add_zero, ← h.1, ← h.2]
    · rw [decide_eq_false (by simp only [List.length_nil]; omega), Bool.false_and, Bool.or_false]
  | cons x xs ih =>
    rw [List.length_cons] at hr
    have hroom : packRoom n s = .ok buf := packRoom_of_room hb ((room_iff he).mpr (by omega)) he
    have hctx := afterByte_ctx_same n buf x s
    have hcur : ((afterByte n buf x s).ctx n).cursorBit = (s.ctx n).cursorBit + 10 := by
      rw [hctx]
      exact pastSymbol_cursorBit he
    obtain ⟨t, ht, h⟩ := ih (s := afterByte n buf x s) (by rw [hctx]; exact hb) (by rw [hctx]; exact pastSymbol_even he)
      (by rw [hcur]; omega)
    have hrd : ((afterByte n buf x s).ctx n).rd = (encodeSymbol s.config (s.ctx n).rd x).2 := by rw [hctx]
    have hlen : (s.ctx n).cursorBit + 10 + 10 * xs.length = (s.ctx n).cursorBit + 10 * (xs.length + 1) := by omega
    refine ⟨t, ?_, ?_, fun m hm => (h.others m hm).trans (afterByte_ctx_other _ _ _ hm), h.config, h.pending, h.reply,
      fun i => ?_, fun a ha => ?_⟩
    · rw [encodeBytes, encodeByte_of_room hroom]
      exact ht
    · rw [h.ctx, hcur, hrd, hlen, hctx]
      rfl
    · rw [h.bits, afterByte_streamBit _ _ _ _ he, hcur, hrd, afterByte_config, encodeSymbols, symbolsBit_cons,
        List.length_cons, hlen, Bool.or_assoc]
      congr 1
      by_cases h1 : i < (s.ctx n).cursorBit
      · simp [show ¬ (s.ctx n).cursorBit ≤ i by omega, show ¬ (s.ctx n).cursorBit + 10 ≤ i by omega]
      · by_cases h2 : i < (s.ctx n).cursorBit + 10
        · rw [if_pos (by omega), decide_eq_true (by omega), decide_eq_false (by omega), decide_eq_true (by omega)]
          simp
        · rw [if_neg (by omega), decide_eq_false (p := _ ∧ i < (s.ctx n).cursorBit + 10) (by omega), Bool.false_and,
            Bool.false_or, show i - (s.ctx n).cursorBit - 10 = i - ((s.ctx n).cursorBit + 10) by omega]
          congr 1
          exact decide_eq_decide.mpr (by omega)
    · have ha := ha (by simp)
      have h6 : (s.ctx n).bitOff.toNat ≤ 6 := by rcases even_cases he with h | h | h | h <;> rw [h] <;> decide
      have hc : (s.ctx n).cursorBit = 8 * (s.ctx n).bytePos + (s.ctx n).bitOff.toNat := rfl
      have hc1 : ((afterByte n buf x s).ctx n).cursorBit = 8 * ((afterByte n buf x s).ctx n).bytePos +
        ((afterByte n buf x s).ctx n).bitOff.toNat := rfl
      have h61 := ((afterByte n buf x s).ctx n).bitOff.isLt
      rw [List.length_cons] at ha
      rw [h.bytes a (fun _ => by rw [hcur]; omega), afterByte_read, if_neg (by omega), if_neg (by omega)]

/-! ### DECODE -/

/-- What DECODE's loop leaves of the bytes `out` it stored, up to the reply. -/
structure Decoded (n : Nat) (out : List Byte) (s t : State) : Prop where
  ctx : t.ctx n = { s.ctx n with bytePos := (s.ctx n).bytePos + out.length }
  others : ∀ m, m ≠ n → t.ctx m = s.ctx m
  config : t.config = s.config
  pending : t.pending = s.pending
  stored : ∀ buf len, (s.ctx n).outSel = .bound buf len → ∀ x, t.read x =
    if buf + (s.ctx n).bytePos ≤ x ∧ x < buf + (s.ctx n).bytePos + out.length
    then out.getD (x - (buf + (s.ctx n).bytePos)) 0 else s.read x
  unbound : (s.ctx n).outSel = .unbound → t.mem = s.mem

theorem decoded_nil (n : Nat) (s : State) (r : Reply) : Decoded n [] s (s.withReply r) :=
  ⟨rfl, fun _ _ => rfl, rfl, rfl, fun buf len _ x => by rw [if_neg (by simp only [List.length_nil]; omega)]; rfl,
    fun _ => rfl⟩

theorem decoded_cons {n buf len : Nat} {b : Byte} {out : List Byte} {s t : State}
    (hb : (s.ctx n).outSel = .bound buf len) (h : Decoded n out (afterStore n buf b s) t) :
    Decoded n (b :: out) s t := by
  have hctx := afterStore_ctx_same n buf b s
  have hpos : ((afterStore n buf b s).ctx n).bytePos = (s.ctx n).bytePos + 1 := by rw [hctx]
  refine ⟨?_, fun m hm => (h.others m hm).trans (afterStore_ctx_other _ _ _ hm), h.config, h.pending,
    fun buf' len' hb' x => ?_, fun hu => absurd (hb.symm.trans hu) (by simp)⟩
  · rw [h.ctx, hctx, List.length_cons]
    simp only [Context.mk.injEq, true_and, and_true]
    omega
  · cases hb.symm.trans hb'
    rw [h.stored buf len (by rw [hctx]; exact hb), hpos, afterStore_read, List.length_cons]
    by_cases hx : x = buf + (s.ctx n).bytePos
    · subst hx
      rw [if_neg (by omega), if_pos rfl, if_pos (by omega), Nat.sub_self, List.getD_cons_zero]
    · by_cases hin : buf + ((s.ctx n).bytePos + 1) ≤ x ∧ x < buf + ((s.ctx n).bytePos + 1) + out.length
      · rw [if_pos hin, if_pos (by omega),
          show x - (buf + (s.ctx n).bytePos) = x - (buf + ((s.ctx n).bytePos + 1)) + 1 by omega, List.getD_cons_succ]
      · rw [if_neg hin, if_neg hx, if_neg (by omega)]

theorem decodedBytes_length_le (t : Tables) (syms : List Symbol) : (decodedBytes t syms).length ≤ syms.length := by
  induction syms with
  | nil => exact Nat.le_refl 0
  | cons sym syms ih =>
    simp only [decodedBytes]
    cases decodeSymbol t sym with
    | none => exact Nat.zero_le _
    | some b => exact Nat.succ_le_succ ih

/-- Where the valid symbols before the first invalid one all fit, DECODE ends normally. -/
theorem decodeSyms_run {n : Nat} (syms : List Symbol) {s : State}
    (hfit : decodedBytes s.config.tables syms = [] ∨ ∃ buf len, (s.ctx n).outSel = .bound buf len ∧
      (s.ctx n).bytePos + (decodedBytes s.config.tables syms).length ≤ len) :
    ∃ t, decodeSyms n syms s = .next t ∧ Decoded n (decodedBytes s.config.tables syms) s t ∧
      t.reply = some (if (decodedBytes s.config.tables syms).length = syms.length then .ok else .codeViolation) := by
  induction syms generalizing s with
  | nil => exact ⟨_, rfl, decoded_nil n s _, rfl⟩
  | cons sym syms ih =>
    cases hd : decodeSymbol s.config.tables sym with
    | none =>
      simp only [decodeSyms, decodedBytes, hd]
      exact ⟨_, rfl, decoded_nil n s _, rfl⟩
    | some b =>
      simp only [decodeSyms, decodedBytes, hd] at hfit ⊢
      rcases hfit with hfit | ⟨buf, len, hb, hl⟩
      · cases hfit
      rw [List.length_cons] at hl
      rw [storeDecoded_of_room hb (by omega)]
      have hctx := afterStore_ctx_same n buf b s
      obtain ⟨t, ht, h, hr⟩ := ih (s := afterStore n buf b s)
        (.inr ⟨buf, len, by rw [hctx]; exact hb, by rw [hctx, afterStore_config]; simp only; omega⟩)
      refine ⟨t, ht, decoded_cons hb h, ?_⟩
      rw [hr]
      exact congrArg some (ite_congr (by simp) (fun _ => rfl) fun _ => rfl)

/-- Where the bound buffer is full before them, DECODE stops at the first that does not fit. -/
theorem decodeSyms_overrun {n buf len : Nat} (syms : List Symbol) {s : State}
    (hb : (s.ctx n).outSel = .bound buf len) (hpos : (s.ctx n).bytePos ≤ len)
    (hover : len < (s.ctx n).bytePos + (decodedBytes s.config.tables syms).length) :
    ∃ t, decodeSyms n syms s = .fault (.contractViolation .outputOverrun t) ∧ t.reply = s.reply ∧
      Decoded n ((decodedBytes s.config.tables syms).take (len - (s.ctx n).bytePos)) s t := by
  induction syms generalizing s with
  | nil =>
    simp only [decodedBytes, List.length_nil] at hover
    omega
  | cons sym syms ih =>
    simp only [decodeSyms, decodedBytes] at hover ⊢
    cases hd : decodeSymbol s.config.tables sym with
    | none =>
      simp only [hd, List.length_nil] at hover
      omega
    | some b =>
      simp only [hd, List.length_cons] at hover ⊢
      by_cases hfull : (s.ctx n).bytePos = len
      · rw [storeDecoded_full hb (by omega), hfull, Nat.sub_self]
        refine ⟨s, rfl, rfl, ?_⟩
        exact ⟨rfl, fun _ _ => rfl, rfl, rfl, fun buf len _ x => by
          rw [if_neg (by simp only [List.take_zero, List.length_nil]; omega)], fun _ => rfl⟩
      · rw [storeDecoded_of_room hb (by omega)]
        have hctx := afterStore_ctx_same n buf b s
        have hp : ((afterStore n buf b s).ctx n).bytePos = (s.ctx n).bytePos + 1 := by rw [hctx]
        obtain ⟨t, ht, hr, h⟩ := ih (s := afterStore n buf b s) (by rw [hctx]; exact hb) (by omega)
          (by rw [hp, afterStore_config]; omega)
        rw [hp, afterStore_config] at h
        refine ⟨t, ht, hr, ?_⟩
        rw [show len - (s.ctx n).bytePos = len - ((s.ctx n).bytePos + 1) + 1 by omega, List.take_succ_cons]
        exact decoded_cons hb h

end Sys2Proof.Machine
end

