-- ==== Sys2Proof/Laws/Issue.lean ====
section
/-! SUPPORT. Commands issued at once: when two clash, when a list of them has no meaning, and what a step makes of it. -/

namespace Sys2Proof.Machine

/-! ### Two commands -/

theorem clash_same {s : State} {i j : Instr} {n : Nat} (hi : contextOf i = some n) (hj : contextOf j = some n) :
    clash s i j = some (.concurrentCommands n) := by
  simp only [clash, hi, hj, if_true]

/-- Commands of two contexts clash exactly where the buffers of the two overlap. -/
theorem clash_contexts {s : State} {i j : Instr} {n m : Nat} (hi : contextOf i = some n) (hj : contextOf j = some m)
    (h : n ≠ m) : clash s i j = if buffersOverlap s i j = true then some .overlappingBuffers else none := by
  simp only [clash, hi, hj, if_neg h]

/-- Commands of which one names no context clash exactly where what one may write overlaps what the other accesses. -/
theorem clash_contextless {s : State} {i j : Instr} (h : contextOf i = none ∨ contextOf j = none) :
    clash s i j = if accessesOverlap s i j = true then some .overlappingBuffers else none := by
  unfold clash
  cases hi : contextOf i <;> cases hj : contextOf j <;> simp_all

/-- What is accessed of memory is among the buffers of the context driven. -/
theorem mem_buffersOf {s : State} {i : Instr} {r : Region} :
    r ∈ buffersOf s i ↔ boundOf s i = some r ∨ bindsOf i = some r ∨ inputsOf i = some r := by
  simp only [buffersOf, List.mem_append, Option.mem_toList, or_assoc]

theorem mem_buffersOf_iff_uses {s : State} {i : Instr} {r : Region} : r ∈ buffersOf s i ↔ UsesBuffer s i r := by
  have hb : bindsOf i = some r ↔ ∃ n buf len, i = .setout n buf len ∧ r = { base := buf, len := len } := by
    cases i <;> simp [bindsOf, eq_comm]
  simp only [mem_buffersOf, boundOf, Option.bind_eq_some_iff, UsesBuffer, hb]

theorem boundOf_of_writesOf {s : State} {i : Instr} {r : Region} (h : writesOf s i = some r) : boundOf s i = some r := by
  cases i <;> first | exact h | cases h

theorem overlaps_of_shared {r q : Region} {a : Nat} (hr : r.has a = true) (hq : q.has a = true) :
    r.overlaps q = true := by
  have hr : r.base ≤ a ∧ a < r.base + r.len := of_decide_eq_true hr
  have hq : q.base ≤ a ∧ a < q.base + q.len := of_decide_eq_true hq
  exact decide_eq_true (by omega)

theorem buffersOverlap_iff {s : State} {i j : Instr} :
    buffersOverlap s i j = true ↔ ∃ r ∈ buffersOf s i, ∃ q ∈ buffersOf s j, r.overlaps q = true := by
  simp only [buffersOverlap, List.any_eq_true]

/-- Overlapping accesses are overlapping buffers. -/
theorem buffersOverlap_of_accessesOverlap {s : State} {i j : Instr} (h : accessesOverlap s i j = true) :
    buffersOverlap s i j = true := by
  have shared : ∀ {x y : Option Region}, regionsOverlap x y = true →
      ∃ r q, x = some r ∧ y = some q ∧ r.overlaps q = true := fun {x y} h => by
    cases x <;> cases y <;> first | exact ⟨_, _, rfl, rfl, h⟩ | cases h
  simp only [accessesOverlap, Bool.or_eq_true] at h
  rw [buffersOverlap_iff]
  rcases h with (h | h) | h <;> obtain ⟨r, q, hr, hq, ho⟩ := shared h
  · exact ⟨r, mem_buffersOf.2 (.inl (boundOf_of_writesOf hr)), q, mem_buffersOf.2 (.inl (boundOf_of_writesOf hq)), ho⟩
  · exact ⟨r, mem_buffersOf.2 (.inl (boundOf_of_writesOf hr)), q, mem_buffersOf.2 (.inr (.inr hq)), ho⟩
  · exact ⟨r, mem_buffersOf.2 (.inr (.inr hr)), q, mem_buffersOf.2 (.inl (boundOf_of_writesOf hq)), ho⟩

/-- Commands that do not clash name two contexts, or not both one, and keep out of what the other writes. -/
theorem clash_none {s : State} {i j : Instr} (h : clash s i j = none) :
    (∀ n, contextOf i = some n → contextOf j ≠ some n) ∧ accessesOverlap s i j = false := by
  refine ⟨fun n hi hj => (by rw [clash_same hi hj] at h; cases h), Bool.eq_false_iff.2 fun ha => ?_⟩
  cases hi : contextOf i with
  | none => rw [clash_contextless (.inl hi), if_pos ha] at h; cases h
  | some n =>
    cases hj : contextOf j with
    | none => rw [clash_contextless (.inr hj), if_pos ha] at h; cases h
    | some m =>
      by_cases hnm : n = m
      · rw [clash_same hi (hnm ▸ hj)] at h; cases h
      · rw [clash_contexts hi hj hnm, if_pos (buffersOverlap_of_accessesOverlap ha)] at h; cases h

/-! ### What they depend on -/

/-- Whether two commands clash depends on the contexts they name and on nothing else. -/
theorem clash_congr {s t : State} {i j : Instr} (hi : ∀ n, contextOf i = some n → t.ctx n = s.ctx n)
    (hj : ∀ n, contextOf j = some n → t.ctx n = s.ctx n) : clash t i j = clash s i j := by
  have bound : ∀ {k}, (∀ n, contextOf k = some n → t.ctx n = s.ctx n) → boundOf t k = boundOf s k := fun {k} h => by
    unfold boundOf
    cases hk : contextOf k with
    | none => rfl
    | some n => simp only [Option.bind_some, h n hk]
  have writes : ∀ {k}, (∀ n, contextOf k = some n → t.ctx n = s.ctx n) → writesOf t k = writesOf s k := fun {k} h => by
    cases k <;> first | rfl | simp only [writesOf, h _ rfl]
  simp only [clash, buffersOverlap, accessesOverlap, buffersOf, bound hi, bound hj, writes hi, writes hj]
  rfl

theorem ownRefusal_congr {s t : State} {i : Instr} (h : ∀ n, contextOf i = some n → t.ctx n = s.ctx n) :
    ownRefusal t i = ownRefusal s i := by
  cases i <;> first | rfl | simp only [ownRefusal, h _ rfl]

/-- A command is refused exactly where `ownRefusal` says so, and for that reason. -/
theorem exec_refused_iff {i : Instr} {s : State} {r : Refusal} :
    exec i s = .refused r ↔ ownRefusal s i = some r := by
  have ready : ∀ n (run : Context → Result), whenReady n s run = .refused r ↔
      (s.ctx n).life = .ready ∧ run (s.ctx n) = .refused r := fun n run => by
    cases hl : (s.ctx n).life <;> simp [whenReady, hl, raise]
  have refusal : ∀ n inp, (if (s.ctx n).life = .ready ∧ inputOverlaps inp (s.ctx n).outSel = true
      then some (Refusal.inputOverlapsOutput n) else none) = some r ↔
      (s.ctx n).life = .ready ∧ inputOverlaps inp (s.ctx n).outSel = true ∧ Refusal.inputOverlapsOutput n = r :=
    fun n inp => by simp [and_assoc]
  cases i with
  | encode n inp =>
    rw [exec, execEncode, ready, ownRefusal, refusal]
    cases inputOverlaps inp (s.ctx n).outSel
    · cases encodeBytes n (s.inputBytes inp) s <;> simp [State.answer]
    · simp
  | decode n inp l =>
    rw [exec, execDecode, ready, ownRefusal, refusal, decodeLoop_start]
    have loop := (decodeSyms_keeps (n := n) (P := fun _ => True) (fun _ _ _ _ _ => trivial) (fun _ _ _ => trivial)
      (unpackSymbols (s.inputBytes inp) (l / 10)) (s := s) trivial).2.2 r
    cases inputOverlaps inp (s.ctx n).outSel
    · simp only [Bool.false_eq_true, if_false, false_and, and_false, iff_false, not_and]
      intro _
      split
      · simp [raise]
      · split
        · simp [raise]
        · exact loop
    · simp
  | init _ | setout _ _ _ | encsym _ _ | decsym _ | dec6 _ | dec4 _ | unpack10 _ _ | enc6 _ _ | enc4 _ _ | pack10 _ _ =>
    simp only [exec, execInit, execSetout, execEncsym, execDecsym, execDec6, execDec4, execUnpack10, execEnc6, execEnc4,
      execPack10, ready, ownRefusal]
    first
      | (simp [State.answer]; done)
      | (simp only [State.answer, reduceCtorEq, iff_false]; split <;> simp [raise])

/-! ### A list of commands -/

/-- Nothing clashes in a list exactly where no two of its members do. -/
theorem firstClash_eq_none {s : State} {is : List Instr} :
    firstClash s is = none ↔ is.Pairwise fun i j => clash s i j = none := by
  induction is with
  | nil => simp [firstClash]
  | cons i is ih => simp only [firstClash, Option.or_eq_none_iff, List.findSome?_eq_none_iff, List.pairwise_cons, ih]

/-- A request has a meaning exactly where no two of its commands clash and none of those after the first is refused by
itself. -/
theorem issueRefusal_eq_none {s : State} {i : Instr} {js : List Instr} :
    issueRefusal s i js = none ↔
      (i :: js).Pairwise (fun a b => clash s a b = none) ∧ ∀ j ∈ js, ownRefusal s j = none := by
  simp only [issueRefusal, Option.or_eq_none_iff, firstClash_eq_none, List.findSome?_eq_none_iff]

theorem decodeAll_cons {c : Command} {cs : List Command} {is : List Instr} (h : decodeAll (c :: cs) = .ok is) :
    ∃ j js, decode c = .ok j ∧ decodeAll cs = .ok js ∧ is = j :: js := by
  rw [decodeAll] at h
  cases hc : decode c <;> rw [hc] at h
  · cases h
  · cases hcs : decodeAll cs <;> rw [hcs] at h <;> cases h
    exact ⟨_, _, rfl, rfl, rfl⟩

/-- The decoded commands stand in the order of the commands. -/
theorem decodeAll_append {cs ds : List Command} {is : List Instr} (h : decodeAll (cs ++ ds) = .ok is) :
    ∃ js ks, decodeAll cs = .ok js ∧ decodeAll ds = .ok ks ∧ is = js ++ ks := by
  induction cs generalizing is with
  | nil => exact ⟨[], is, rfl, h, rfl⟩
  | cons c cs ih =>
    obtain ⟨j, js, hj, hjs, rfl⟩ := decodeAll_cons h
    obtain ⟨ks, ls, hk, hl, rfl⟩ := ih hjs
    exact ⟨j :: ks, ls, by rw [decodeAll, hj, hk], hl, rfl⟩

/-! ### The step -/

/-- A command runs in the state as it is, but for the requests. -/
theorem fetch_run {s t : State} {i : Instr} (h : fetch s = .run i t) : ∃ rs, t = s.withPending rs := by
  unfold fetch at h
  split at h
  · cases h
  · cases h
  · split at h
    · cases h
    · cases h
    · split at h <;> cases h
      exact ⟨_, rfl⟩

/-- A store of the environment is the next request, and its bytes are written. -/
theorem fetch_stored {s t : State} (h : fetch s = .stored t) :
    ∃ a bs rest, s.pending = .store a bs :: rest ∧ t = (s.withPending rest).writeBytes a bs := by
  unfold fetch at h
  split at h
  · cases h
  · cases h
    exact ⟨_, _, _, ‹_›, rfl⟩
  · split at h
    · cases h
    · cases h
    · split at h <;> cases h

/-- A request of which every command decodes is refused as `issueRefusal` says, or its first command runs. -/
theorem step_issue {s : State} {c : Command} {also : List Command} {rest : List Request} {i : Instr} {js : List Instr}
    (hp : s.pending = .issue c also :: rest) (hd : decodeAll (c :: also) = .ok (i :: js)) :
    step s = match issueRefusal s i js with
      | some r => .refused r
      | none => exec i (s.withPending (requeue also rest)) := by
  obtain ⟨_, _, hc, ha, he⟩ := decodeAll_cons hd
  cases he
  unfold step fetch
  rw [hp]
  simp only [hc, ha]
  cases issueRefusal s i js <;> rfl

/-- A request with a command that does not decode is refused by the first such. -/
theorem step_issue_reserved {s : State} {c : Command} {also : List Command} {rest : List Request} {op : OpCode}
    (hp : s.pending = .issue c also :: rest) (hd : decodeAll (c :: also) = .error (.reservedCode op)) :
    step s = .refused (.reservedCommandCode op) := by
  unfold step fetch
  rw [hp]
  rw [decodeAll] at hd
  cases hc : decode c with
  | error e => rw [hc] at hd; cases hd; simp only [hc]
  | ok i =>
    rw [hc] at hd
    simp only at hd
    cases ha : decodeAll also with
    | error e => rw [ha] at hd; cases hd; simp only [hc, ha]
    | ok js => rw [ha] at hd; cases hd

end Sys2Proof.Machine
end

