-- ==== Sys2Proof/Laws/Local.lean ====
section
/-! SUPPORT. What a command depends on: the tables, its own context, the bytes of its buffer and of its input
(10_state.md R34, R38). -/

namespace Sys2Proof.Machine

/-- Two states agree on the tables, on context `n` and on the buffer bound to it. -/
structure Agree (n : Nat) (s t : State) : Prop where
  config : t.config = s.config
  ctx : t.ctx n = s.ctx n
  bytes : ∀ buf len, (s.ctx n).outSel = .bound buf len → ∀ a, buf ≤ a → a < buf + len → t.read a = s.read a

theorem Agree.packRoom {n buf : Nat} {s t : State} (h : Agree n s t) (hs : packRoom n s = .ok buf) :
    packRoom n t = .ok buf := packRoom_congr h.ctx hs

theorem Agree.setRd {n : Nat} {s t : State} (h : Agree n s t) (rd : Disparity) :
    Agree n (s.setRd n rd) (t.setRd n rd) := by
  refine ⟨h.config, by simp only [setRd_ctx_same, h.ctx], fun buf len hb a h1 h2 => ?_⟩
  rw [setRd_ctx_same] at hb
  exact h.bytes buf len hb a h1 h2

theorem Agree.appendSymbol {n : Nat} {s t : State} (h : Agree n s t) (buf : Nat) (sym : Symbol) :
    Agree n (appendSymbol n buf sym s) (appendSymbol n buf sym t) := by
  refine ⟨h.config, by simp only [appendSymbol_ctx_same, h.ctx], fun b len hb a h1 h2 => ?_⟩
  rw [appendSymbol_ctx_same] at hb
  rw [appendSymbol_read, appendSymbol_read, h.ctx, h.bytes b len hb a h1 h2]

theorem Agree.afterByte {n : Nat} {s t : State} (h : Agree n s t) (buf : Nat) (b : Byte) :
    Agree n (afterByte n buf b s) (afterByte n buf b t) := by
  unfold Machine.afterByte
  rw [h.config, h.ctx]
  exact (h.setRd _).appendSymbol buf _

theorem Agree.afterStore {n : Nat} {s t : State} (h : Agree n s t) (buf : Nat) (b : Byte) :
    Agree n (afterStore n buf b s) (afterStore n buf b t) := by
  refine ⟨h.config, by simp only [afterStore_ctx_same, h.ctx], fun c len hb a h1 h2 => ?_⟩
  rw [afterStore_ctx_same] at hb
  rw [afterStore_read, afterStore_read, h.ctx, h.bytes c len hb a h1 h2]

theorem Agree.encodeBytes {n : Nat} (xs : List Byte) {s t u : State} (h : Agree n s t)
    (hu : encodeBytes n xs s = .ok u) : ∃ v, encodeBytes n xs t = .ok v ∧ Agree n u v := by
  induction xs generalizing s t with
  | nil =>
    cases hu
    exact ⟨t, rfl, h⟩
  | cons x xs ih =>
    rw [Machine.encodeBytes] at hu
    cases hx : encodeByte n x s with
    | error f =>
      rw [hx] at hu
      cases hu
    | ok w =>
      rw [hx] at hu
      obtain ⟨buf, hroom, rfl⟩ := encodeByte_ok hx
      obtain ⟨v, hv, ha⟩ := ih (h.afterByte buf x) hu
      refine ⟨v, ?_, ha⟩
      rw [Machine.encodeBytes, encodeByte_of_room (h.packRoom hroom)]
      exact hv

theorem Agree.decodeSyms {n : Nat} (syms : List Symbol) {s t u : State} (h : Agree n s t)
    (hu : decodeSyms n syms s = .next u) :
    ∃ v, decodeSyms n syms t = .next v ∧ Agree n u v ∧ v.reply = u.reply := by
  induction syms generalizing s t with
  | nil =>
    cases hu
    exact ⟨_, rfl, ⟨h.config, h.ctx, h.bytes⟩, rfl⟩
  | cons sym syms ih =>
    simp only [Machine.decodeSyms] at hu ⊢
    rw [h.config]
    cases hd : decodeSymbol s.config.tables sym with
    | none =>
      simp only [hd] at hu
      cases hu
      exact ⟨_, rfl, ⟨h.config, h.ctx, h.bytes⟩, rfl⟩
    | some b =>
      simp only [hd] at hu
      cases hx : storeDecoded n b s with
      | error f =>
        rw [hx] at hu
        cases hu
      | ok w =>
        rw [hx] at hu
        obtain ⟨buf, len, hb, hl, rfl⟩ := storeDecoded_ok hx
        simp only
        rw [storeDecoded_of_room (len := len) (by rw [h.ctx]; exact hb) (by rw [h.ctx]; exact hl)]
        exact ih (h.afterStore buf b) hu

/-- An input sequence is the same where the bytes of its region are. -/
theorem inputBytes_congr {s t : State} {inp : Input}
    (h : ∀ r, inputRegion inp = some r → ∀ a, r.has a = true → t.read a = s.read a) :
    t.inputBytes inp = s.inputBytes inp := by
  cases inp with
  | bytes bs => rfl
  | buffer base len =>
    refine readBytes_congr fun i hi => h ⟨base, len⟩ rfl (base + i) (decide_eq_true ?_)
    show base ≤ base + i ∧ base + i < base + len
    omega

/-- A command that ends normally ends normally, with the same result and the same effect, in every state that agrees
with the first on what the command depends on. -/
theorem exec_local {i : Instr} {s s' t : State} (hc : s'.config = s.config)
    (hn : ∀ n, contextOf i = some n → s'.ctx n = s.ctx n)
    (hw : ∀ r, writesOf s i = some r → ∀ a, r.has a = true → s'.read a = s.read a)
    (hi : ∀ r, inputsOf i = some r → ∀ a, r.has a = true → s'.read a = s.read a) (h : exec i s = .next t) :
    ∃ t', exec i s' = .next t' ∧ t'.reply = t.reply ∧ (∀ n, contextOf i = some n → t'.ctx n = t.ctx n) ∧
      ∀ r, writesOf s i = some r → ∀ a, r.has a = true → t'.read a = t.read a := by
  have agree : ∀ n, s'.ctx n = s.ctx n → (∀ r, (s.ctx n).outSel.region = some r → ∀ a, r.has a = true →
      s'.read a = s.read a) → Agree n s s' := fun n hn hw => ⟨hc, hn, fun buf len hb a h1 h2 =>
    hw ⟨buf, len⟩ (by rw [hb]; rfl) a (decide_eq_true ⟨h1, h2⟩)⟩
  have back : ∀ {n u v}, Agree n u v → (u.ctx n).outSel = (s.ctx n).outSel →
      ∀ r, (s.ctx n).outSel.region = some r → ∀ a, r.has a = true → v.read a = u.read a := fun ha ho r hr a h => by
    cases hs : (s.ctx _).outSel with
    | unbound =>
      rw [hs] at hr
      cases hr
    | bound buf len =>
      rw [hs] at hr
      cases hr
      have := of_decide_eq_true h
      exact ha.bytes buf len (ho.trans hs) a this.1 this.2
  cases i with
  | init n =>
    cases h
    refine ⟨_, exec_init, rfl, fun m hm => ?_, fun r hr => by cases hr⟩
    cases hm
    simp only [withReply_ctx, setCtx_ctx_same]
  | setout n buf len =>
    have hn := hn n rfl
    rw [exec, execSetout] at h
    rcases whenReady_cases h with ⟨_, h⟩ | ⟨hr, h⟩ <;> cases h
    refine ⟨_, exec_setout (by rw [hn]; exact hr), rfl, fun m hm => ?_, fun r hr => by cases hr⟩
    cases hm
    simp only [withReply_ctx, setCtx_ctx_same, hn]
  | enc6 n v =>
    have hn := hn n rfl
    rw [exec, execEnc6] at h
    rcases whenReady_cases h with ⟨_, h⟩ | ⟨hr, h⟩
    · cases h
    · simp only at h
      split at h <;> cases h
      refine ⟨_, exec_enc6 (by rw [hn]; exact hr) (by omega), ?_, fun m hm => ?_, fun r hr => by cases hr⟩
      · simp only [withReply_reply, hn, hc, subEnc]
      · cases hm
        simp only [withReply_ctx, setRd_ctx_same, hn, hc, subEnc]
  | enc4 n v =>
    have hn := hn n rfl
    rw [exec, execEnc4] at h
    rcases whenReady_cases h with ⟨_, h⟩ | ⟨hr, h⟩
    · cases h
    · simp only at h
      split at h <;> cases h
      refine ⟨_, exec_enc4 (by rw [hn]; exact hr) (by omega), ?_, fun m hm => ?_, fun r hr => by cases hr⟩
      · simp only [withReply_reply, hn, hc, subEnc]
      · cases hm
        simp only [withReply_ctx, setRd_ctx_same, hn, hc, subEnc]
  | encsym n b =>
    have hn := hn n rfl
    rw [exec, execEncsym] at h
    rcases whenReady_cases h with ⟨_, h⟩ | ⟨hr, h⟩ <;> cases h
    refine ⟨_, exec_encsym (by rw [hn]; exact hr), ?_, fun m hm => ?_, fun r hr => by cases hr⟩
    · simp only [withReply_reply, hn, hc]
    · cases hm
      simp only [withReply_ctx, setRd_ctx_same, hn, hc]
  | dec6 c =>
    rw [exec, execDec6] at h
    split at h <;> cases h
    exact ⟨_, exec_dec6 (by omega), by simp only [withReply_reply, hc], fun m hm => (by cases hm),
      fun r hr => (by cases hr)⟩
  | dec4 c =>
    rw [exec, execDec4] at h
    split at h <;> cases h
    exact ⟨_, exec_dec4 (by omega), by simp only [withReply_reply, hc], fun m hm => (by cases hm),
      fun r hr => (by cases hr)⟩
  | decsym sym =>
    cases h
    exact ⟨_, exec_decsym, by simp only [withReply_reply, hc], fun m hm => (by cases hm),
      fun r hr => (by cases hr)⟩
  | unpack10 inp k =>
    have hin := inputBytes_congr hi
    rw [exec, execUnpack10] at h
    split at h <;> cases h
    exact ⟨_, exec_unpack10 (by rw [hin]; omega), by simp only [withReply_reply, hin], fun m hm => (by cases hm),
      fun r hr => (by cases hr)⟩
  | pack10 n sym =>
    have ha := agree n (hn n rfl) hw
    rw [exec, execPack10] at h
    rcases whenReady_cases h with ⟨_, h⟩ | ⟨hr, h⟩
    · cases h
    · cases hp : packRoom n s with
      | error f =>
        rw [hp] at h
        cases h
      | ok buf =>
        rw [hp] at h
        cases h
        have ha2 := ha.appendSymbol buf sym
        refine ⟨_, exec_pack10 (by rw [ha.ctx]; exact hr) (ha.packRoom hp), rfl, fun m hm => ?_, fun r hr a h =>
          back ha2 (by rw [appendSymbol_ctx_same]; rfl) r hr a h⟩
        cases hm
        exact ha2.ctx
  | encode n inp =>
    have ha := agree n (hn n rfl) hw
    have hin := inputBytes_congr hi
    obtain ⟨hr, ho, u, hu, rfl⟩ := exec_encode_next h
    obtain ⟨v, hv, ha2⟩ := ha.encodeBytes _ hu
    have hsel := (encodeBytes_keeps (n := n) (P := fun w => (w.ctx n).outSel = (s.ctx n).outSel)
      (fun w b x hw hx => by
        obtain ⟨buf, _, rfl⟩ := encodeByte_ok hx
        rw [afterByte_ctx_same]
        exact hw) (s.inputBytes inp) rfl).1 u hu
    refine ⟨v.withReply .done, exec_encode (by rw [ha.ctx]; exact hr) (by rw [ha.ctx]; exact ho) (by rw [hin]; exact hv), rfl,
      fun m hm => ?_, fun r hr a h => back ha2 hsel r hr a h⟩
    cases hm
    exact ha2.ctx
  | decode n inp l =>
    have ha := agree n (hn n rfl) hw
    have hin := inputBytes_congr hi
    rw [exec, execDecode] at h
    rcases whenReady_cases h with ⟨_, h⟩ | ⟨hr, h⟩
    · cases h
    · split at h
      · cases h
      · rename_i ho
        split at h
        · cases h
        · split at h
          · cases h
          · rw [decodeLoop_start] at h
            obtain ⟨v, hv, ha2, hrep⟩ := ha.decodeSyms _ h
            have hsel := (decodeSyms_keeps (n := n) (P := fun w => (w.ctx n).outSel = (s.ctx n).outSel)
              (fun w b x hw hx => by
                obtain ⟨buf, len, _, _, rfl⟩ := storeDecoded_ok hx
                rw [afterStore_ctx_same]
                exact hw) (fun w r hw => hw) (unpackSymbols (s.inputBytes inp) (l / 10)) rfl).1 t h
            refine ⟨v, ?_, hrep, fun m hm => ?_, back ha2 hsel⟩
            · rw [exec_decode (by rw [ha.ctx]; exact hr) (by rw [ha.ctx]; exact Bool.eq_false_iff.mpr ho) (by omega)
                (by rw [hin]; omega), hin]
              exact hv
            · cases hm
              exact ha2.ctx

end Sys2Proof.Machine
end

