-- ==== Sys2Proof/Laws/PerInstr.lean ====
section
/-! SUPPORT. Per-instruction families. `EncodesBelowReserved`: no command is encoded with one of the reserved codes
`0b1100` to `0b1111` (30_encoding.md R97, R98). -/

namespace Sys2Proof.Laws.EncodesBelowReserved

/-- The code of an encoded command is one of the twelve rows of R97. -/
def Statement (i : Instr) : Prop := (encode i).op.toNat < 12

theorem init (ctx : Nat) : Statement (.init ctx) := (by decide : (0b0000#4).toNat < 12)
theorem setout (ctx buf outLen : Nat) : Statement (.setout ctx buf outLen) := (by decide : (0b0001#4).toNat < 12)
theorem encode (ctx : Nat) (input : Input) : Statement (.encode ctx input) := (by decide : (0b0010#4).toNat < 12)
theorem decode (ctx : Nat) (input : Input) (bitLength : Nat) : Statement (.decode ctx input bitLength) :=
  (by decide : (0b0011#4).toNat < 12)
theorem enc6 (ctx v : Nat) : Statement (.enc6 ctx v) := (by decide : (0b0100#4).toNat < 12)
theorem enc4 (ctx v : Nat) : Statement (.enc4 ctx v) := (by decide : (0b0101#4).toNat < 12)
theorem dec6 (c : Nat) : Statement (.dec6 c) := (by decide : (0b0110#4).toNat < 12)
theorem dec4 (c : Nat) : Statement (.dec4 c) := (by decide : (0b0111#4).toNat < 12)
theorem encsym (ctx : Nat) (b : Byte) : Statement (.encsym ctx b) := (by decide : (0b1000#4).toNat < 12)
theorem pack10 (ctx : Nat) (s : Symbol) : Statement (.pack10 ctx s) := (by decide : (0b1001#4).toNat < 12)
theorem decsym (s : Symbol) : Statement (.decsym s) := (by decide : (0b1010#4).toNat < 12)
theorem unpack10 (input : Input) (k : Nat) : Statement (.unpack10 input k) := (by decide : (0b1011#4).toNat < 12)

end Sys2Proof.Laws.EncodesBelowReserved
end

