-- ==== Sys2Proof/Tests/Slice0.lean ====
section
/-! SUPPORT. The model's own tests. The expected values are those of 95_test_vectors.md, whose vector each comment
names, or are worked out by hand from the rule it names; after them, for every statement with hypotheses, a witness
that meets them. -/

namespace Sys2Proof.Machine.Tests

open Sys2Proof Sys2Proof.Machine

/-! ### Helpers -/

/-- Context 0 as given, `bs` in memory from address 16 on, everything else as at reset. -/
def st (c : Context) (bs : List Byte) : State := (State.reset.setCtx 0 c).writeBytes 16 bs

/-- A ready context, bound to `len` bytes at address 16. -/
def bnd (rd : Disparity) (len p : Nat) (o : BitVec 3) : Context :=
  { life := .ready, rd := rd, outSel := .bound 16 len, bytePos := p, bitOff := o }

/-- A ready context at the start, with a disparity. -/
def fresh (rd : Disparity) : Context := { Context.afterInit with rd := rd }

/-- The state a command ends in, where it ends normally. -/
def endOf : Result → Option State
  | .next t => some t
  | .fault _ => none
  | .refused _ => none

/-- The fault a command ends in. -/
def faultOf : Result → Option Fault
  | .next _ => none
  | .fault f => some f
  | .refused _ => none

/-- The contract violation a command ends in. -/
def violationOf : Result → Option ContractViolation
  | .fault (.contractViolation k _) => some k
  | .next _ | .fault (.oddBitOffset _) | .refused _ => none

/-- The refusal a command ends in. -/
def refusalOf : Result → Option Refusal
  | .next _ | .fault _ => none
  | .refused r => some r

/-- What the tests look at: the result, context 0, and the first bytes at address 16. -/
def seen (len : Nat) (o : Result) : Option (Option Reply × Context × List Byte) :=
  (endOf o).map fun t => (t.reply, t.ctx 0, t.readBytes 16 len)

/-- The same of the state a fault leaves, with the violation. -/
def left (len : Nat) (o : Result) : Option (ContractViolation × Context × List Byte) :=
  match o with
  | .fault (.contractViolation k t) => some (k, t.ctx 0, t.readBytes 16 len)
  | .next _ | .fault (.oddBitOffset _) | .refused _ => none

/-- A command that ends normally ends in its `endOf`. -/
theorem next_of {o : Result} (h : (endOf o).isSome = true) : o = .next ((endOf o).get h) := by
  cases o with
  | next t => rfl
  | fault f => cases h
  | refused r => cases h

theorem fault_of {o : Result} (h : (faultOf o).isSome = true) : o = .fault ((faultOf o).get h) := by
  cases o with
  | next t => cases h
  | fault f => rfl
  | refused r => cases h

/-! ### WellFormed: an ill-formed term for each check -/

theorem test_wf_enc6 : (Instr.enc6 0 31).wellFormed = true ∧ (Instr.enc6 0 32).wellFormed = false := by decide
theorem test_wf_enc4 : (Instr.enc4 0 7).wellFormed = true ∧ (Instr.enc4 0 8).wellFormed = false := by decide
theorem test_wf_dec6 : (Instr.dec6 63).wellFormed = true ∧ (Instr.dec6 64).wellFormed = false := by decide
theorem test_wf_dec4 : (Instr.dec4 15).wellFormed = true ∧ (Instr.dec4 16).wellFormed = false := by decide

/-! ### Decode: the code column of 30_encoding.md R97, bit by bit, operands beside it -/

theorem test_decode_init : decode { op := 0b0000#4, ctx := 3 } = .ok (.init 3) := by decide
theorem test_decode_setout : decode { op := 0b0001#4, ctx := 3, buf := 16, outLen := 5 } = .ok (.setout 3 16 5) := by
  decide
theorem test_decode_encode : decode { op := 0b0010#4, ctx := 3, input := .bytes [0x4a] } =
    .ok (.encode 3 (.bytes [0x4a])) := by decide
theorem test_decode_decode : decode { op := 0b0011#4, ctx := 3, input := .buffer 16 5, bitLength := 40 } =
    .ok (.decode 3 (.buffer 16 5) 40) := by decide
theorem test_decode_enc6 : decode { op := 0b0100#4, ctx := 3, value := 31 } = .ok (.enc6 3 31) := by decide
theorem test_decode_enc4 : decode { op := 0b0101#4, ctx := 3, value := 7 } = .ok (.enc4 3 7) := by decide
theorem test_decode_dec6 : decode { op := 0b0110#4, value := 0x35 } = .ok (.dec6 0x35) := by decide
theorem test_decode_dec4 : decode { op := 0b0111#4, value := 0xd } = .ok (.dec4 0xd) := by decide
theorem test_decode_encsym : decode { op := 0b1000#4, ctx := 3, byte := 0x4a } = .ok (.encsym 3 0x4a) := by decide
theorem test_decode_pack10 : decode { op := 0b1001#4, ctx := 3, symbol := 0x2aa } = .ok (.pack10 3 0x2aa) := by decide
theorem test_decode_decsym : decode { op := 0b1010#4, symbol := 0x0b9 } = .ok (.decsym 0x0b9) := by decide
theorem test_decode_unpack10 : decode { op := 0b1011#4, input := .bytes [0x35, 0x02], index := 0 } =
    .ok (.unpack10 (.bytes [0x35, 0x02]) 0) := by decide

/-- R98: the four reserved codes. -/
theorem test_decode_reserved : (List.map (fun op => decode { op := op, ctx := 1 }) [0b1100#4, 0b1101#4, 0b1110#4, 0b1111#4]) =
    [.error (.reservedCode 0b1100#4), .error (.reservedCode 0b1101#4), .error (.reservedCode 0b1110#4),
      .error (.reservedCode 0b1111#4)] := by decide

theorem test_table_words : List.map (decodeTableWord 8) [0b0000, 0b0001, 0b0010, 0b0011, 0b0100, 0b0101, 0b0110, 0b0111] =
    [some (.init 0), some (.setout 0 0 0), some (.encode 0 (.bytes [])), some (.decode 0 (.bytes []) 0),
      some (.enc6 0 0), some (.enc4 0 0), some (.dec6 0), some (.dec4 0)] := by decide
theorem test_table_words_high : List.map (decodeTableWord 8) [0b1000, 0b1001, 0b1010, 0b1011, 0b1100, 0b1111] =
    [some (.encsym 0 0), some (.pack10 0 0), some (.decsym 0), some (.unpack10 (.bytes []) 0), none, none] := by decide

/-- A command issued at reset is the first to run (R26). -/
theorem test_withFetchWord : (endOf (step (State.reset.withFetchWord 8 0b0100))).map (fun t => (t.reply, t.pending)) =
    some (some (.code6 0x39), []) := by decide

/-! ### Commands issued at once (R212) -/

/-- Contexts 0 and 1 at the start, bound to two bytes each, at 16 and at `buf`. -/
def pair (buf : Nat) : State := (st (bnd .negative 2 0 0) []).setCtx 1 { bnd .negative 2 0 0 with outSel := .bound buf 2 }

/-- Two contexts, bound to bytes 16 and 17, and to bytes 17 and 18; the second pair is disjoint. -/
abbrev two : State := pair 17
abbrev apart : State := pair 20

/-- A step with these commands issued at once. -/
def atOnce (c : Command) (also : List Command) (s : State) : Result := step (s.withPending [.issue c also])

/-- ENC6 on context 0, and behind it two commands on context 1: none of the three runs. -/
theorem test_clash_behind_the_first :
    refusalOf (atOnce { op := 4 } [{ op := 4, ctx := 1 }, { op := 5, ctx := 1 }] apart) = some (.concurrentCommands 1) := by
  decide
/-- Two contexts whose bound buffers share byte 17, which neither command writes; the same with disjoint buffers runs. -/
theorem test_unwritten_buffers : refusalOf (atOnce { op := 4 } [{ op := 4, ctx := 1 }] two) = some .overlappingBuffers ∧
    (endOf (atOnce { op := 4 } [{ op := 4, ctx := 1 }] apart)).isSome = true := by decide
/-- Two contexts with one input between them; two UNPACK10 of that input drive no context and run. -/
theorem test_shared_input :
    refusalOf (atOnce { op := 2, input := .buffer 30 1 } [{ op := 2, ctx := 1, input := .buffer 30 1 }] apart) =
      some .overlappingBuffers ∧
    (endOf (atOnce { op := 11, input := .buffer 30 2 } [{ op := 11, input := .buffer 30 2 }] apart)).isSome = true := by
  decide
/-- SETOUT over the buffer of a context in use. -/
theorem test_setout_over_buffer_in_use :
    refusalOf (atOnce { op := 4 } [{ op := 1, ctx := 1, buf := 17, outLen := 1 }] apart) = some .overlappingBuffers := by
  decide

/-! ### INIT and SETOUT (2.10) -/

theorem test_init : seen 2 (exec (.init 0) (st (bnd .positive 8 3 6) [0x12, 0x34])) =
    some (some .done, Context.afterInit, [0x12, 0x34]) := by decide
theorem test_init_created : (endOf (exec (.init 7) State.reset)).map (fun t => t.ctx 7) = some Context.afterInit := by
  decide
theorem test_setout : seen 2 (exec (.setout 0 16 8) (st (bnd .positive 3 2 4) [0x12, 0x34])) =
    some (some .done, bnd .positive 8 0 0, [0x12, 0x34]) := by decide
theorem test_setout_created : violationOf (exec (.setout 1 16 8) State.reset) = some .notInitialized := by decide

/-! ### ENC6 and ENC4 (2.1, 2.2) -/

/-- S3: 7 at Negative is 0x07; 23 at Negative is 0x17 and makes it Positive. -/
theorem test_enc6 : seen 0 (exec (.enc6 0 7) (st (fresh .negative) [])) = some (some (.code6 0x07), fresh .negative, []) ∧
    seen 0 (exec (.enc6 0 23) (st (fresh .negative) [])) = some (some (.code6 0x17), fresh .positive, []) := by decide
theorem test_enc6_positive : seen 0 (exec (.enc6 0 31) (st (fresh .positive) [])) =
    some (some (.code6 0x0a), fresh .negative, []) := by decide
theorem test_enc4 : seen 0 (exec (.enc4 0 3) (st (fresh .negative) [])) = some (some (.code4 0x3), fresh .negative, []) := by
  decide
theorem test_enc4_positive : seen 0 (exec (.enc4 0 7) (st (fresh .positive) [])) =
    some (some (.code4 0x8), fresh .negative, []) := by decide

/-! ### ENCSYM (2.4): byte 0x07, whose symbol depends on the order -/

theorem test_encsym_lowFirst : seen 0 (exec (.encsym 0 0x07) (st (fresh .negative) [])) =
    some (some (.symbol 0x347), fresh .positive, []) := by decide
theorem test_encsym_highFirst : seen 0 (exec (.encsym 0 0x07)
    { st (fresh .negative) [] with config := { defaultConfig with order := .highFirst } }) =
    some (some (.symbol 0x378), fresh .positive, []) := by decide

/-! ### PACK10 (2.5) -/

/-- Row (3, 6), 0x200: the top bit lands in bit 7 of the second byte. -/
theorem test_pack10 : seen 5 (exec (.pack10 0 0x200) (st (bnd .negative 5 3 6) [0, 0, 0, 0, 0])) =
    some (some .done, bnd .negative 5 5 0, [0, 0, 0, 0, 0x80]) := by decide
/-- Row (0, 0), 0x155: OR onto what stands there. -/
theorem test_pack10_or : seen 2 (exec (.pack10 0 0x155) (st (bnd .positive 2 0 0) [0x80, 0x01])) =
    some (some .done, bnd .positive 2 1 2, [0xd5, 0x01]) := by decide

/-! ### ENCODE (2.6) -/

/-- E5, from cursor (0, 0) on a zeroed buffer. -/
theorem test_encode : seen 7 (exec (.encode 0 (.bytes [0x00, 0x01, 0x02, 0x03, 0x04])) (st (bnd .negative 7 0 0) [])) =
    some (some .done, bnd .positive 7 6 2, [0xb9, 0xb8, 0xd2, 0xca, 0xd8, 0x54, 0x03]) := by decide
/-- The failure vector with `OUT_LEN = 3`: two bytes stay encoded. -/
theorem test_encode_overrun : left 4 (exec (.encode 0 (.bytes [0x00, 0x00, 0x00])) (st (bnd .negative 3 0 0) [])) =
    some (.outputOverrun, bnd .negative 3 2 4, [0xb9, 0xe4, 0x02, 0x00]) := by decide

/-! ### DEC6, DEC4, DECSYM (2.3, 2.7) -/

theorem test_dec6 : (endOf (exec (.dec6 0x35) State.reset)).map (·.reply) = some (some (.low (some 31))) ∧
    (endOf (exec (.dec6 0x3c) State.reset)).map (·.reply) = some (some (.low none)) := by decide
theorem test_dec6_range : violationOf (exec (.dec6 64) State.reset) = some .valueOutOfRange := by decide
theorem test_dec4 : (endOf (exec (.dec4 0x8) State.reset)).map (·.reply) = some (some (.high (some 7))) ∧
    (endOf (exec (.dec4 0xe) State.reset)).map (·.reply) = some (some (.high none)) := by decide
theorem test_decsym : (endOf (exec (.decsym 0x0b9) State.reset)).map (·.reply) = some (some (.byte (some 0x00))) ∧
    (endOf (exec (.decsym 0x235) State.reset)).map (·.reply) = some (some (.byte (some 0xff))) := by decide
theorem test_decsym_invalid : (endOf (exec (.decsym 0x02a) State.reset)).map (·.reply) = some (some (.byte none)) := by
  decide

/-! ### UNPACK10 (2.8) -/

theorem test_unpack10 : (endOf (exec (.unpack10 (.bytes [0xca, 0x19, 0xad, 0x56, 0xa5]) 3) State.reset)).map (·.reply) =
    some (some (.symbol 0x295)) := by decide
theorem test_unpack10_short : violationOf (exec (.unpack10 (.bytes [0xb9, 0xb8, 0xd2, 0xca, 0xd8, 0x54]) 4) State.reset) =
    some .inputTooShort := by decide

/-! ### DECODE (2.9) -/

/-- D6: two bytes are kept, the invalid symbol and the one after it are never stored. D12: the output is full after two
symbols. -/
theorem test_decode_stops : seen 4 (exec (.decode 0 (.bytes [0x35, 0xe6, 0xf2, 0x7f, 0xa5]) 40)
    (st (bnd .negative 4 0 0) [0xee, 0xee, 0xee, 0xee])) =
    some (some .codeViolation, bnd .negative 4 2 0, [0xff, 0x00, 0xee, 0xee]) ∧
    left 3 (exec (.decode 0 (.bytes [0xca, 0x19, 0xad, 0x56, 0xa5]) 40) (st (bnd .negative 2 0 0) [0xee, 0xee, 0xee])) =
    some (.outputOverrun, bnd .negative 2 2 0, [0xff, 0x00, 0xee]) := by decide
/-- D20: a store overwrites a partly filled byte and keeps the bit offset. -/
theorem test_decode_mixed : seen 4 (exec (.decode 0 (.bytes [0x35, 0x02]) 10) (st (bnd .negative 4 1 2) [0xaa, 0x02])) =
    some (some .ok, bnd .negative 4 2 2, [0xaa, 0xff, 0x00, 0x00]) := by decide

/-! ### Witnesses: for every statement with hypotheses, values that meet them together, at the edges of their ranges -/

theorem witness_decodeEncodeAgree : (⟨0b0100#4, 3, 0, 0, .bytes [], 0, 31, 0, 0, 0⟩ : Command).canonical = true ∧
    decode ⟨0b0100#4, 3, 0, 0, .bytes [], 0, 31, 0, 0, 0⟩ = .ok (.enc6 3 31) := by decide

theorem witness_reservedCodesRefused :
    ((State.reset.withPending [.issue { op := 12 } []]).pending = .issue { op := 12 } [] :: [] ∧
      ([{ op := 12 }] : List Command) = [] ++ { op := 12 } :: [] ∧ 12 ≤ (12#4).toNat) ∧
    ((State.reset.withPending [.issue { op := 11 } [{ op := 15 }]]).pending = .issue { op := 11 } [{ op := 15 }] :: [] ∧
      ([{ op := 11 }, { op := 15 }] : List Command) = [{ op := 11 }] ++ { op := 15 } :: [] ∧
      (∀ e ∈ ([{ op := 11 }] : List Command), e.op.toNat < 12) ∧ 12 ≤ (15#4).toNat) ∧
    ({ op := 11 } : Command).op.toNat < 12 := by decide

theorem witness_stepRunsTheIssuedCommand :
    (State.reset.withFetchWord 8 0b0100).pending = .issue { op := 4 } [] :: [] ∧ decode { op := 4 } = .ok (.enc6 0 0) := by
  decide

/-- INIT on context 1 and ENCODE on context 0 at once. -/
theorem witness_stepServesTheOtherRequests : State.reset.pending = [] ∧
    (State.reset.withPending [.store 16 [1, 2]]).pending = .store 16 [1, 2] :: [] ∧
    let s := State.reset.withPending [.issue { op := 0, ctx := 1 } [{ op := 2 }]]
    s.pending = .issue { op := 0, ctx := 1 } ({ op := 2 } :: []) :: [] ∧
    decodeAll [{ op := 0, ctx := 1 }, { op := 2 }] = .ok [.init 1, .encode 0 (.bytes [])] ∧
    [Instr.init 1, .encode 0 (.bytes [])].Pairwise (fun a b => clash s a b = none) ∧
    ∀ n inp, (.encode n inp ∈ [Instr.encode 0 (.bytes [])] ∨ ∃ l, .decode n inp l ∈ [Instr.encode 0 (.bytes [])]) →
      inputOverlaps inp (s.ctx n).outSel = false := by
  refine ⟨rfl, rfl, rfl, rfl, by decide, fun n inp h => ?_⟩
  rcases h with h | ⟨l, h⟩ <;> simp only [List.mem_singleton] at h <;> cases h
  rfl

/-- ENC6 and ENC4 on one context behind a command that clashes with nothing. -/
theorem witness_clashingCommandsRefused_sameContext :
    let s := two.withPending [.issue { op := 6 } [{ op := 4 }, { op := 5 }]]
    s.pending = .issue { op := 6 } [{ op := 4 }, { op := 5 }] :: [] ∧
    ([{ op := 6 }, { op := 4 }, { op := 5 }] : List Command) = [{ op := 6 }] ++ { op := 4 } :: ([] ++ { op := 5 } :: []) ∧
    decode { op := 4 } = .ok (.enc6 0 0) ∧ decode { op := 5 } = .ok (.enc4 0 0) ∧
    contextOf (.enc6 0 0) = some 0 ∧ contextOf (.enc4 0 0) = some 0 := by decide
/-- Bound buffers that share byte 17, neither of them written; a buffer that SETOUT binds over a bound one. -/
theorem witness_clashingCommandsRefused_buffers :
    (∃ s : State, s.pending = .issue { op := 4 } [{ op := 4, ctx := 1 }] :: [] ∧
      ([{ op := 4 }, { op := 4, ctx := 1 }] : List Command) = [] ++ { op := 4 } :: ([] ++ { op := 4, ctx := 1 } :: []) ∧
      decode { op := 4 } = .ok (.enc6 0 0) ∧ decode { op := 4, ctx := 1 } = .ok (.enc6 1 0) ∧
      UsesBuffer s (.enc6 0 0) ⟨16, 2⟩ ∧ UsesBuffer s (.enc6 1 0) ⟨17, 2⟩ ∧
      Region.has ⟨16, 2⟩ 17 = true ∧ Region.has ⟨17, 2⟩ 17 = true) ∧
    ∃ s : State, s.pending = .issue { op := 4 } [{ op := 1, ctx := 1, buf := 17, outLen := 1 }] :: [] ∧
      decode { op := 1, ctx := 1, buf := 17, outLen := 1 } = .ok (.setout 1 17 1) ∧
      UsesBuffer s (.enc6 0 0) ⟨16, 2⟩ ∧ UsesBuffer s (.setout 1 17 1) ⟨17, 1⟩ ∧ Region.has ⟨17, 1⟩ 17 = true :=
  ⟨⟨two.withPending [.issue { op := 4 } [{ op := 4, ctx := 1 }]], rfl, rfl, rfl, rfl, .inl ⟨0, rfl, rfl⟩,
      .inl ⟨1, rfl, rfl⟩, by decide, by decide⟩,
    apart.withPending [.issue { op := 4 } [{ op := 1, ctx := 1, buf := 17, outLen := 1 }]], rfl, rfl,
    .inl ⟨0, rfl, rfl⟩, .inr (.inl ⟨1, 17, 1, rfl, rfl⟩), by decide⟩
/-- A buffer written and an input, over byte 17, of a command without a context. -/
theorem witness_clashingCommandsRefused_contextless :
    let s := two.withPending [.issue { op := 9 } [{ op := 11, input := .buffer 17 2 }]]
    s.pending = .issue { op := 9 } [{ op := 11, input := .buffer 17 2 }] :: [] ∧
    ([{ op := 9 }, { op := 11, input := .buffer 17 2 }] : List Command) =
      [] ++ { op := 9 } :: ([] ++ { op := 11, input := .buffer 17 2 } :: []) ∧
    decode { op := 9 } = .ok (.pack10 0 0) ∧ writesOf s (.pack10 0 0) = some ⟨16, 2⟩ ∧
    decode { op := 11, input := .buffer 17 2 } = .ok (.unpack10 (.buffer 17 2) 0) ∧
    contextOf (.unpack10 (.buffer 17 2) 0) = none ∧ inputsOf (.unpack10 (.buffer 17 2) 0) = some ⟨17, 2⟩ ∧
    Region.has ⟨16, 2⟩ 17 = true ∧ Region.has ⟨17, 2⟩ 17 = true := by decide

theorem witness_commandsAcceptedTogetherAreServed :
    let s := apart.withPending [.issue { op := 4 } [{ op := 9, ctx := 1 }]]
    s.pending = .issue { op := 4 } ({ op := 9, ctx := 1 } :: []) :: [] ∧ ∃ t, step s = .next t :=
  ⟨rfl, _, next_of (by decide)⟩

/-- The premises of SETOUT, ENC6, ENC4, ENCSYM at both disparities, and the last value of each width, DEC6 and DEC4
among them. -/
theorem witness_ready : ((st (fresh .negative) []).ctx 0).life = .ready ∧ ((st (fresh .positive) []).ctx 0).life = .ready ∧
    31 < 32 ∧ 7 < 8 ∧ 63 < 64 ∧ 15 < 16 := by decide

theorem witness_uninitContextFaults : contextOf (.setout 1 16 8) = some 1 ∧ Instr.setout 1 16 8 ≠ .init 1 ∧
    (State.reset.ctx 1).life = .uninit ∧ contextOf (.decode 1 (.bytes []) 12) = some 1 := by decide

theorem witness_valuesOutOfRangeFault : (Instr.enc6 0 32).wellFormed = false ∧ (Instr.enc4 0 8).wellFormed = false ∧
    (Instr.dec6 64).wellFormed = false ∧ (Instr.dec4 16).wellFormed = false ∧ contextOf (.enc6 0 32) = some 0 ∧
    contextOf (.dec6 64) = none ∧ (State.reset.ctx 0).life = .ready := by decide

theorem witness_roundTrip : Tables.RoundTrip State.reset.config.tables :=
  ⟨fun v rd => by cases rd <;> revert v <;> decide, fun v rd => by cases rd <;> revert v <;> decide⟩

/-- With the tables of R89 to R92 context 0 meets the premises of the literals right after reset. -/
theorem witness_freshContextLiterals : Config.Conforms State.reset.config ∧ (State.reset.ctx 0).life = .ready ∧
    (State.reset.ctx 0).rd = .negative := by
  refine ⟨⟨?_, ?_, ?_, ?_, ?_, ?_, ?_, ?_, witness_roundTrip, .inl ⟨0, ?_⟩⟩, ?_, ?_⟩ <;> decide

/-- The last place where a symbol fits: cursor (3, 6) in a buffer of 5. -/
theorem witness_pack10OrsTwoBytes :
    let s := st (bnd .negative 5 3 6) []
    (s.ctx 0).life = .ready ∧ (s.ctx 0).outSel = .bound 16 5 ∧ (s.ctx 0).bytePos + 1 < 5 ∧
      (s.ctx 0).bitOff.toNat % 2 = 0 ∧ (endOf (exec (.pack10 0 0x200) s)).isSome = true := by decide

theorem witness_pack10ChecksItsRoom :
    ((st (fresh .negative) []).ctx 0).outSel = .unbound ∧
    (let s := st (bnd .negative 5 5 0) []
    (s.ctx 0).life = .ready ∧ (s.ctx 0).outSel = .bound 16 5 ∧ 5 ≤ (s.ctx 0).bytePos + 1) ∧
    (let s := st (bnd .negative 2 1 2) []
    (s.ctx 0).life = .ready ∧ (s.ctx 0).outSel = .bound 16 2 ∧ 2 ≤ (s.ctx 0).bytePos + 1) := by decide

/-- Bit 7 of byte 16 is set before PACK10 and before an ENCODE that ends in a fault. -/
theorem witness_encoderNeverClears :
    (∃ t, Leaves (.pack10 0 0x155) (st (bnd .negative 2 0 0) [0x80]) t) ∧
    (∃ t, Leaves (.encode 0 (.bytes [0, 0])) (st (bnd .negative 2 0 0) [0x80]) t) ∧
    ((st (bnd .negative 2 0 0) [0x80]).read 16).getLsbD 7 = true :=
  ⟨⟨_, .inl (next_of (by decide))⟩, ⟨_, .inr ⟨_, fault_of (by decide), rfl⟩⟩, by decide⟩

theorem witness_encodeByteIsEncsymThenPack10 : ∃ t u, exec (.encsym 0 0x4a) (st (bnd .negative 2 0 0) []) = .next t ∧
    t.reply = some (.symbol 0x2aa) ∧ exec (.pack10 0 0x2aa) t = .next u :=
  ⟨_, _, next_of (by decide), by decide, next_of (by decide)⟩

/-- Room for exactly four symbols, from cursor (0, 0), and for the last bit from cursor (1, 6). -/
theorem witness_encodeCompletesWhereThereIsRoom :
    (let s := st (bnd .negative 5 0 0) []
    (s.ctx 0).life = .ready ∧ (s.ctx 0).outSel = .bound 16 5 ∧
      inputOverlaps (.bytes [1, 2, 3, 4]) (s.ctx 0).outSel = false ∧ (s.ctx 0).bitOff.toNat % 2 = 0 ∧
      (s.ctx 0).cursorBit + 10 * (s.inputBytes (.bytes [1, 2, 3, 4])).length ≤ 8 * 5) ∧
    (let s := st (bnd .positive 3 1 6) [0xff, 0xff, 0xff, 9]
    (s.ctx 0).outSel = .bound 16 3 ∧ inputOverlaps (.buffer 19 1) (s.ctx 0).outSel = false ∧
      (s.ctx 0).bitOff.toNat % 2 = 0 ∧ (s.ctx 0).cursorBit + 10 * (s.inputBytes (.buffer 19 1)).length ≤ 8 * 3) := by decide

theorem witness_encodeWritesItsSymbolsInOrder :
    let s := st (bnd .negative 2 0 0) []
    (s.ctx 0).life = .ready ∧ (s.ctx 0).outSel = .bound 16 2 ∧ inputOverlaps (.bytes [0xff]) (s.ctx 0).outSel = false ∧
      (s.ctx 0).bytePos = 0 ∧ (s.ctx 0).bitOff = 0 ∧ (10 * (s.inputBytes (.bytes [0xff])).length + 7) / 8 ≤ 2 ∧
      ∀ p, p < (10 * (s.inputBytes (.bytes [0xff])).length + 7) / 8 → s.read (16 + p) = 0 := by decide

/-- Two bytes of memory behind the buffer, and the two as bytes with the command. -/
theorem witness_encodeComposes :
    let s := st (bnd .negative 3 0 0) [0, 0, 0, 0x4a, 0x4a]
    s.inputBytes (.bytes [0x4a, 0x4a]) = s.inputBytes (.buffer 19 1) ++ s.inputBytes (.buffer 20 1) ∧
      inputOverlaps (.buffer 19 1) (s.ctx 0).outSel = false ∧ inputOverlaps (.buffer 20 1) (s.ctx 0).outSel = false ∧
      inputOverlaps (.bytes [0x4a, 0x4a]) (s.ctx 0).outSel = false ∧
      (endOf (exec (.encode 0 (.bytes [0x4a, 0x4a])) s)).isSome = true := by decide

theorem witness_encodeOfNothing : (State.reset.ctx 0).life = .ready ∧ State.reset.inputBytes (.bytes []) = [] ∧
    State.reset.inputBytes (.buffer 16 0) = [] := by decide

theorem witness_encodeStopsWhereTheRoomEnds :
    (∃ t, (let s := st (bnd .negative 3 0 0) []
      (s.ctx 0).outSel = .bound 16 3 ∧ inputOverlaps (.bytes [0, 0, 0]) (s.ctx 0).outSel = false ∧
        s.inputBytes (.bytes [0, 0, 0]) = [0, 0] ++ 0 :: [] ∧ exec (.encode 0 (.bytes [0, 0])) s = .next t) ∧
      3 ≤ (t.ctx 0).bytePos + 1) ∧
    (State.reset.ctx 0).life = .ready ∧ (State.reset.ctx 0).outSel = .unbound ∧
    State.reset.inputBytes (.bytes [0x4a]) ≠ [] :=
  ⟨⟨_, ⟨by decide, by decide, by decide, next_of (by decide)⟩, by decide⟩, by decide, by decide, by decide⟩

theorem witness_overlappingInputRefused :
    let s := st (bnd .negative 2 0 0) []
    ((s.ctx 0).life = .ready ∧ (s.ctx 0).outSel = .bound 16 2 ∧ 15 ≤ 16 ∧ 16 < 15 + 2 ∧ 16 ≤ 16 ∧ 16 < 16 + 2) ∧
    (s.withPending [.issue { op := 6 } [{ op := 2, input := .buffer 17 1 }]]).pending =
      .issue { op := 6 } [{ op := 2, input := .buffer 17 1 }] :: [] ∧
    decode { op := 2, input := .buffer 17 1 } = .ok (.encode 0 (.buffer 17 1)) ∧
    inputOverlaps (.buffer 17 1) (s.ctx 0).outSel = true := by decide

theorem witness_decsymInvertsEncsym : Tables.RoundTrip State.reset.config.tables ∧
    ∃ t, exec (.encsym 0 0x07) State.reset = .next t := ⟨witness_roundTrip, _, next_of (by decide)⟩

theorem witness_unpack10ReadsTenStreamBits :
    10 * 3 + 10 ≤ 8 * (State.reset.inputBytes (.bytes [0xca, 0x19, 0xad, 0x56, 0xa5])).length ∧
    8 * (State.reset.inputBytes (.bytes [0xca, 0x19, 0xad, 0x56])).length < 10 * 3 + 10 := by decide

/-- Four symbols that just fit; an invalid symbol with no buffer bound. -/
theorem witness_decodeStoresTheValidPrefix :
    (let s := st (bnd .negative 4 0 0) []
    let inp := Input.bytes [0xca, 0x19, 0xad, 0x56, 0xa5]
    (s.ctx 0).life = .ready ∧ inputOverlaps inp (s.ctx 0).outSel = false ∧ 40 % 10 = 0 ∧
      40 ≤ 8 * (s.inputBytes inp).length ∧
      [0xff, 0x00, 0xaa, 0x55] = decodedBytes s.config.tables (unpackSymbols (s.inputBytes inp) (40 / 10)) ∧
      (s.ctx 0).outSel = .bound 16 4 ∧ (s.ctx 0).bytePos + [0xff, 0x00, 0xaa, 0x55].length ≤ 4) ∧
    (let s := State.reset
    (s.ctx 0).life = .ready ∧ inputOverlaps (.bytes [0, 0]) (s.ctx 0).outSel = false ∧
      10 ≤ 8 * (s.inputBytes (.bytes [0, 0])).length ∧
      [] = decodedBytes s.config.tables (unpackSymbols (s.inputBytes (.bytes [0, 0])) (10 / 10))) := by decide

theorem witness_decodeStopsWhereTheRoomEnds :
    let out := [0xff, 0x00, 0xaa, 0x55]
    let inp := Input.bytes [0xca, 0x19, 0xad, 0x56, 0xa5]
    (let s := st (bnd .negative 3 0 0) []
    (s.ctx 0).life = .ready ∧ inputOverlaps inp (s.ctx 0).outSel = false ∧ 40 ≤ 8 * (s.inputBytes inp).length ∧
      out = decodedBytes s.config.tables (unpackSymbols (s.inputBytes inp) (40 / 10)) ∧
      (s.ctx 0).outSel = .bound 16 3 ∧ (s.ctx 0).bytePos ≤ 3 ∧ 3 < (s.ctx 0).bytePos + out.length) ∧
    (let s := State.reset
    out = decodedBytes s.config.tables (unpackSymbols (s.inputBytes inp) (40 / 10)) ∧ (s.ctx 0).outSel = .unbound ∧
      out ≠ []) := by decide

/-- D6, then D19. -/
theorem witness_decodesStoreOneAfterTheOther :
    let s := st (bnd .negative 4 0 0) []
    (s.ctx 0).outSel = .bound 16 4 ∧ ∃ t u, exec (.decode 0 (.bytes [0x35, 0xe6, 0xf2, 0x7f, 0xa5]) 40) s = .next t ∧
      exec (.decode 0 (.bytes [0x95, 0x02]) 10) t = .next u ∧ [0xff, 0x00] ++ [0x55] =
      decodedBytes s.config.tables (unpackSymbols (s.inputBytes (.bytes [0x35, 0xe6, 0xf2, 0x7f, 0xa5])) (40 / 10)) ++
        decodedBytes s.config.tables (unpackSymbols (t.inputBytes (.bytes [0x95, 0x02])) (10 / 10)) :=
  ⟨by decide, _, _, next_of (by decide), next_of (by decide), by decide⟩

/-- D9 and D10. -/
theorem witness_decodeChecksItsBitLength :
    let s := st (bnd .negative 4 0 0) []
    (s.ctx 0).life = .ready ∧ inputOverlaps (.bytes [0x35]) (s.ctx 0).outSel = false ∧ 12 % 10 ≠ 0 ∧ 10 % 10 = 0 ∧
      8 * (s.inputBytes (.bytes [0x35])).length < 10 := by decide

theorem witness_decodeOfNothing : (State.reset.ctx 0).life = .ready ∧
    inputOverlaps (.bytes []) (State.reset.ctx 0).outSel = false ∧
    inputOverlaps (.buffer 16 2) (State.reset.ctx 0).outSel = false := by decide

/-- S5 and D4: the six bits above the symbol differ. -/
theorem witness_decodeIgnoresTheTail :
    let s := st (bnd .negative 1 0 0) [0, 0, 0x35, 0xfe]
    10 ≤ 8 * (s.inputBytes (.bytes [0x35, 0x02])).length ∧ 10 ≤ 8 * (s.inputBytes (.buffer 18 2)).length ∧
    inputOverlaps (.bytes [0x35, 0x02]) (s.ctx 0).outSel = inputOverlaps (.buffer 18 2) (s.ctx 0).outSel ∧
    ∀ i, i < 10 → streamBit (s.inputBytes (.bytes [0x35, 0x02])) i = streamBit (s.inputBytes (.buffer 18 2)) i := by decide

/-- An encoder on context 0 at byte 16, a decoder on context 1 right behind its last byte. -/
theorem witness_decodeOfEncodeGivesTheBytesBack :
    let s := (st (bnd .negative 2 0 0) [0, 0, 0, 0xf7]).setCtx 1 { bnd .positive 1 0 0 with outSel := .bound 18 1 }
    let xs : List Byte := [0xf7]
    0 ≠ 1 ∧ Tables.RoundTrip s.config.tables ∧ s.inputBytes (.buffer 19 1) = xs ∧
      inputOverlaps (.buffer 19 1) (s.ctx 0).outSel = false ∧ (s.ctx 0).life = .ready ∧ (s.ctx 0).outSel = .bound 16 2 ∧
      (s.ctx 0).bytePos = 0 ∧ (s.ctx 0).bitOff = 0 ∧ (10 * xs.length + 7) / 8 ≤ 2 ∧
      (∀ p, p < (10 * xs.length + 7) / 8 → s.read (16 + p) = 0) ∧ (s.ctx 1).life = .ready ∧
      (s.ctx 1).outSel = .bound 18 1 ∧ (s.ctx 1).bytePos = 0 ∧ xs.length ≤ 1 ∧
      inputOverlaps (.buffer 16 ((10 * xs.length + 7) / 8)) (.bound 18 1) = false :=
  ⟨by decide, witness_roundTrip, by decide, by decide, by decide, by decide, by decide, by decide, by decide, by decide,
    by decide, by decide, by decide, by decide, by decide⟩

/-- INIT brings a Positive disparity to Negative; ENC6, ENC4, ENCSYM and ENCODE move it. -/
theorem witness_onlyEncodersMoveTheDisparity :
    (∃ t, Leaves (.init 0) (st (fresh .positive) []) t ∧ (t.ctx 0).rd ≠ ((st (fresh .positive) []).ctx 0).rd) ∧
    (∃ t, Leaves (.enc6 0 0) State.reset t ∧ (t.ctx 0).rd ≠ (State.reset.ctx 0).rd) ∧
    (∃ t, Leaves (.enc4 0 0) State.reset t ∧ (t.ctx 0).rd ≠ (State.reset.ctx 0).rd) ∧
    (∃ t, Leaves (.encsym 0 0x07) State.reset t ∧ (t.ctx 0).rd ≠ (State.reset.ctx 0).rd) ∧
    (let s := st (bnd .negative 2 0 0) []
    ∃ t, Leaves (.encode 0 (.bytes [0x07])) s t ∧ (t.ctx 0).rd ≠ (s.ctx 0).rd) :=
  ⟨⟨_, .inl (next_of (by decide)), by decide⟩, ⟨_, .inl (next_of (by decide)), by decide⟩,
    ⟨_, .inl (next_of (by decide)), by decide⟩, ⟨_, .inl (next_of (by decide)), by decide⟩,
    ⟨_, .inl (next_of (by decide)), by decide⟩⟩

theorem witness_otherContextsUntouched : (∃ t, Leaves (.pack10 0 0) two t) ∧ contextOf (.pack10 0 0) ≠ some 1 ∧
    (∃ t, Leaves (.dec6 0) two t) ∧ contextOf (.dec6 0) ≠ some 0 :=
  ⟨⟨_, .inl (next_of (by decide))⟩, by decide, ⟨_, .inl (next_of (by decide))⟩, by decide⟩

/-- PACK10 changes the last byte of the bound buffer, and DECODE its first. -/
theorem witness_memoryWrittenOnlyInsideTheBoundBuffer :
    (let s := st (bnd .negative 5 3 6) []
    ∃ t, Leaves (.pack10 0 0x200) s t ∧ t.read 20 ≠ s.read 20) ∧
    (let s := st (bnd .negative 1 0 0) []
    ∃ t, Leaves (.decode 0 (.bytes [0x35, 0x02]) 10) s t ∧ t.read 16 ≠ s.read 16) :=
  ⟨⟨_, .inl (next_of (by decide)), by decide⟩, ⟨_, .inl (next_of (by decide)), by decide⟩⟩

theorem witness_tablesNeverChange : (∃ t, Leaves (.init 0) State.reset t) ∧ ∃ t, step State.reset = .next t :=
  ⟨⟨_, .inl (next_of (by decide))⟩, _, next_of (by decide)⟩

/-- An early violation in ENCODE; a late one in PACK10. -/
theorem witness_earlyViolationsTouchNothing :
    (∃ t, exec (.encode 1 (.bytes [0])) State.reset = .fault (.contractViolation .notInitialized t) ∧
      ContractViolation.notInitialized ≠ .noOutput ∧ ContractViolation.notInitialized ≠ .outputOverrun) ∧
    ∃ t, exec (.pack10 0 0) State.reset = .fault (.contractViolation .noOutput t) ∧
      (∀ n inp, Instr.pack10 0 0 ≠ .encode n inp) ∧ ∀ n inp l, Instr.pack10 0 0 ≠ .decode n inp l :=
  ⟨⟨State.reset, fault_of (by decide), by decide, by decide⟩, State.reset, fault_of (by decide),
    fun _ _ h => (by cases h), fun _ _ _ h => (by cases h)⟩

/-- The contexts of `two` satisfy the invariant. -/
theorem witness_invariant : two.Inv := by
  refine ⟨by decide, by decide, fun n => ?_⟩
  have ok : ∀ buf, Context.Ok { bnd .negative 2 0 0 with outSel := .bound buf 2 } := fun buf =>
    ⟨fun h => (by cases h), (by decide : (0#3).getLsbD 0 = false), fun h => (by cases h), fun _ _ _ => Nat.zero_le _⟩
  by_cases h1 : n = 1
  · subst h1
    exact ok 17
  · by_cases h0 : n = 0
    · subst h0
      exact ok 16
    · have : two.ctx n = Context.created := by
        rw [two, pair, setCtx_ctx_other _ _ h1, st, State.ctx, (writeBytes_fields _ _ _).1]
        exact (setCtx_ctx_other _ _ h0).trans (by
          rw [State.ctx, State.reset, sparseGet_cons, if_neg (by simpa using h0)]
          rfl)
      rw [this]
      exact ⟨fun _ => rfl, by decide, fun _ => ⟨rfl, rfl⟩, fun _ _ h => (by cases h)⟩

/-- A step from a state that meets the invariant, to a next state and to a fault. -/
theorem witness_stepKeepsTheInvariant : two.Inv ∧ (∃ t, step two = .next t) ∧
    (two.withPending [.issue { op := 6, value := 64 } []]).Inv ∧
    ∃ f, step (two.withPending [.issue { op := 6, value := 64 } []]) = .fault f :=
  ⟨witness_invariant, ⟨_, next_of (by decide)⟩,
    ⟨witness_invariant.mem, witness_invariant.ctxs, witness_invariant.ctx⟩, _, fault_of (by decide)⟩

/-- A packer on bytes 16 and 17 and an unpacker that reads byte 18 and on. -/
theorem witness_commandsThatDoNotClashCommute :
    clash two (.pack10 0 0x155) (.unpack10 (.buffer 18 2) 0) = none ∧
    (∃ t u, exec (.pack10 0 0x155) two = .next t ∧ exec (.unpack10 (.buffer 18 2) 0) t = .next u) ∧
    clash apart (.enc6 0 0) (.pack10 1 0x155) = none ∧
    ∃ t u, exec (.enc6 0 0) apart = .next t ∧ exec (.pack10 1 0x155) t = .next u :=
  ⟨by decide, ⟨_, _, next_of (by decide), next_of (by decide)⟩, by decide, _, _, next_of (by decide), next_of (by decide)⟩

/-- 10 bits in 1 byte, which the binding layer's check passes, and 40 bits in 4, which it stops. -/
theorem witness_bindingCheckUnderCounts :
    let s := st (bnd .negative 4 0 0) []
    (s.ctx 0).life = .ready ∧ inputOverlaps (.bytes [0x35]) (s.ctx 0).outSel = false ∧ 10 % 10 = 0 ∧
      (s.inputBytes (.bytes [0x35])).length = 1 ∧ bindingTruncates 1 10 = false ∧
      inputOverlaps (.bytes [0xca, 0x19, 0xad, 0x56]) (s.ctx 0).outSel = false ∧ 40 % 10 = 0 ∧ 40 % 40 = 0 ∧
      bindingTruncates (s.inputBytes (.bytes [0xca, 0x19, 0xad, 0x56])).length 40 = true := by decide

/-- ENCODE whose input overlaps the bound buffer, in a state that meets the invariant; a normal end; a violation. -/
theorem witness_outcomesPerCommand : two.Inv ∧ inputOverlaps (.buffer 17 1) (two.ctx 0).outSel = true ∧
    (endOf (exec (.enc6 0 0) two)).isSome = true ∧ violationOf (exec (.enc6 0 32) two) = some .valueOutOfRange :=
  ⟨witness_invariant, by decide, by decide, by decide⟩

end Sys2Proof.Machine.Tests
end

section
/-! PROOF. 00_scope.md: what one step makes of each kind of request (O4, O5). -/

namespace Sys2Proof.Machine

/-! ### The step, by the next request -/

theorem writeBytes_ctx (bs : List Byte) (s : State) (a n : Nat) : (s.writeBytes a bs).ctx n = s.ctx n := by
  rw [State.ctx, (writeBytes_fields bs s a).1, State.ctx]

theorem step_idle {s : State} (hp : s.pending = []) : step s = .next s := by
  simp only [step, fetch, hp]

theorem step_store {s : State} {a : Nat} {bs : List Byte} {rest : List Request}
    (hp : s.pending = .store a bs :: rest) : step s = .next ((s.withPending rest).writeBytes a bs) := by
  simp only [step, fetch, hp]

/-- The first of commands issued at once runs where no two of them clash and none of the others is refused by itself. -/
theorem step_issue_run {s : State} {c : Command} {also : List Command} {rest : List Request} {i : Instr}
    {js : List Instr} (hp : s.pending = .issue c also :: rest) (hd : decodeAll (c :: also) = .ok (i :: js))
    (hclash : (i :: js).Pairwise fun a b => clash s a b = none) (hown : ∀ j ∈ js, ownRefusal s j = none) :
    step s = exec i (s.withPending (requeue also rest)) := by
  rw [step_issue hp hd, issueRefusal_eq_none.2 ⟨hclash, hown⟩]

/-! ### The conditions of a request -/

theorem decodeAll_singleton {c : Command} {i : Instr} (hc : decode c = .ok i) : decodeAll [c] = .ok [i] := by
  simp only [decodeAll, hc]

/-- Only ENCODE and DECODE can be refused by themselves, and only for an input that overlaps the bound buffer (R63). -/
theorem ownRefusal_eq_none {s : State} {i : Instr}
    (h : ∀ n inp, (i = .encode n inp ∨ ∃ l, i = .decode n inp l) → inputOverlaps inp (s.ctx n).outSel = false) :
    ownRefusal s i = none := by
  cases i with
  | encode n inp => simp [ownRefusal, h n inp (.inl rfl)]
  | decode n inp l => simp [ownRefusal, h n inp (.inr ⟨l, rfl⟩)]
  | init _ | setout _ _ _ | enc6 _ _ | enc4 _ _ | dec6 _ | dec4 _ | encsym _ _ | pack10 _ _ | decsym _
  | unpack10 _ _ => rfl

/-! ### The statements -/

/-- Settles O4: a command alone clashes with nothing, and none is issued with it to be refused. -/
theorem stepRunsTheIssuedCommand : Obligations.StepRunsTheIssuedCommand :=
  fun _ _ _ _ hp hc =>
    step_issue_run hp (decodeAll_singleton hc) (List.pairwise_singleton _ _) fun _ hj => absurd hj List.not_mem_nil

/-- Settles O5, by the next request: none, a store, or several commands at once. -/
theorem stepServesTheOtherRequests : Obligations.StepServesTheOtherRequests := by
  refine ⟨fun s hp => step_idle hp, fun s a bs rest hp => ?_, fun s c d ds rest i js hp hd hclash hapart => ?_⟩
  · obtain ⟨-, hconfig, hpending, hreply⟩ := writeBytes_fields bs (s.withPending rest) a
    exact ⟨_, step_store hp, hpending, hconfig, hreply, writeBytes_ctx bs (s.withPending rest) a,
      writeBytes_read bs (s.withPending rest) a⟩
  · have hown : ∀ j ∈ js, ownRefusal s j = none := fun j hj =>
      ownRefusal_eq_none fun n inp hin => hapart n inp (by
        obtain rfl | ⟨l, rfl⟩ := hin
        · exact .inl hj
        · exact .inr ⟨l, hj⟩)
    exact step_issue_run hp hd hclash hown

end Sys2Proof.Machine
end

section
/-! PROOF. 10_state.md: what every step keeps, which contexts and bytes a command can reach, and so which commands may
be issued at once (O49, O6, O9, O23, O43, O50). -/

namespace Sys2Proof.Machine

/-! ### Contexts that meet the invariant -/

theorem Context.Ok.afterInit : Context.Ok Context.afterInit :=
  ⟨fun h => (by cases h), by decide, fun _ => ⟨rfl, rfl⟩, fun _ _ h => (by cases h)⟩

/-- A ready context at the first byte of a buffer (R191). -/
theorem Context.Ok.rewound {c : Context} (hr : c.life = .ready) (buf len : Nat) :
    Context.Ok { c with outSel := .bound buf len, bytePos := 0, bitOff := 0 } :=
  ⟨fun h => (by cases hr.symm.trans h), (by decide : (0#3).getLsbD 0 = false), fun h => (by cases h),
    fun _ _ _ => Nat.zero_le _⟩

theorem Context.Ok.withRd {c : Context} (h : c.Ok) (hr : c.life = .ready) (rd : Disparity) :
    Context.Ok { c with rd := rd } :=
  ⟨fun hl => (by cases hr.symm.trans hl), h.even, h.unbound, h.inside⟩

theorem nextBytePos_le (p : Nat) (o : BitVec 3) : nextBytePos p o ≤ p + 2 := by
  unfold nextBytePos
  split <;> omega

/-- A symbol for which there was room leaves the cursor inside the buffer or just past it (R23). -/
theorem Context.Ok.pastSymbol {c : Context} (h : c.Ok) (hr : c.life = .ready) {buf len : Nat}
    (hb : c.outSel = .bound buf len) (hroom : c.bytePos + 1 < len) : c.pastSymbol.Ok := by
  refine ⟨fun hl => ?_, pastSymbol_even h.even, fun hu => ?_, fun buf' len' hb' => ?_⟩
  · cases hr.symm.trans hl
  · cases hb.symm.trans hu
  · cases hb.symm.trans hb'
    exact (nextBytePos_le _ _).trans hroom

/-- A stored byte for which there was room leaves the cursor inside the buffer or just past it (R23). -/
theorem Context.Ok.pastByte {c : Context} (h : c.Ok) (hr : c.life = .ready) {buf len : Nat}
    (hb : c.outSel = .bound buf len) (hroom : c.bytePos < len) : Context.Ok { c with bytePos := c.bytePos + 1 } := by
  refine ⟨fun hl => ?_, h.even, fun hu => ?_, fun buf' len' hb' => ?_⟩
  · cases hr.symm.trans hl
  · cases hb.symm.trans hu
  · cases hb.symm.trans hb'
    exact hroom

/-! ### The operations that keep the invariant -/

theorem State.Inv.setCtx {s : State} (h : s.Inv) {n : Nat} {c : Context} (hc : c.Ok) : (s.setCtx n c).Inv := by
  refine ⟨h.mem, setCtx_wf n c h.ctxs, fun m => ?_⟩
  rw [setCtx_ctx]
  split
  · exact hc
  · exact h.ctx m

theorem State.Inv.write {s : State} (h : s.Inv) (a : Nat) (b : Byte) : (s.write a b).Inv :=
  ⟨write_wf a b h.mem, h.ctxs, h.ctx⟩

theorem State.Inv.withPending {s : State} (h : s.Inv) (rest : List Request) : (s.withPending rest).Inv :=
  ⟨h.mem, h.ctxs, h.ctx⟩

theorem State.Inv.withReply {s : State} (h : s.Inv) (r : Reply) : (s.withReply r).Inv :=
  ⟨h.mem, h.ctxs, h.ctx⟩

theorem State.Inv.writeBytes {s : State} (h : s.Inv) (a : Nat) (bs : List Byte) : (s.writeBytes a bs).Inv := by
  induction bs generalizing s a with
  | nil => exact h
  | cons b bs ih => exact ih (h.write a b) (a + 1)

theorem State.Inv.setRd {s : State} (h : s.Inv) {n : Nat} (hr : (s.ctx n).life = .ready) (rd : Disparity) :
    (s.setRd n rd).Inv := h.setCtx ((h.ctx n).withRd hr rd)

theorem State.Inv.appendSymbol {s : State} (h : s.Inv) {n buf : Nat} (hr : (s.ctx n).life = .ready)
    (hroom : packRoom n s = .ok buf) (sym : Symbol) : (appendSymbol n buf sym s).Inv := by
  obtain ⟨len, hb, hlen, -⟩ := packRoom_ok hroom
  exact ((h.write _ _).write _ _).setCtx ((h.ctx n).pastSymbol hr hb hlen)

theorem State.Inv.afterByte {s : State} (h : s.Inv) {n buf : Nat} (hr : (s.ctx n).life = .ready)
    (hroom : packRoom n s = .ok buf) (b : Byte) : (afterByte n buf b s).Inv := by
  obtain ⟨len, hb, hlen, heven⟩ := packRoom_ok hroom
  refine (h.setRd hr _).appendSymbol ?_ (packRoom_of_room (len := len) ?_ ?_ ?_) _ <;> rwa [setRd_ctx_same]

theorem State.Inv.afterStore {s : State} (h : s.Inv) {n buf len : Nat} (hr : (s.ctx n).life = .ready)
    (hb : (s.ctx n).outSel = .bound buf len) (hroom : (s.ctx n).bytePos < len) (b : Byte) :
    (afterStore n buf b s).Inv :=
  (h.write _ _).setCtx ((h.ctx n).pastByte hr hb hroom)

theorem State.Inv.change {i : Instr} {s t : State} (h : s.Inv) (hc : Change i s t) : t.Inv := by
  cases hc with
  | reply _ _ r => exact h.withReply r
  | init n _ => exact h.setCtx .afterInit
  | setout n buf len _ ready => exact h.setCtx (.rewound ready buf len)
  | enc6 n v _ rd ready | enc4 n v _ rd ready | encsym n b _ rd ready => exact h.setRd ready rd
  | pack10 n sym _ buf ready room => exact h.appendSymbol ready room sym
  | encode n inp _ b buf ready room => exact h.afterByte ready room b
  | decode n inp l _ b buf len ready bound room => exact h.afterStore ready bound room b

theorem State.Inv.leaves {i : Instr} {s t : State} (h : s.Inv) (hl : Leaves i s t) : t.Inv :=
  leaves_keeps (fun _ _ hu hc => hu.change hc) hl h

/-! ### What a step can do -/

/-- A step that ends normally was idle, a store of the environment, or one command. -/
theorem step_next_cases {s t : State} (h : step s = .next t) :
    t = s ∨ (∃ a bs rest, t = (s.withPending rest).writeBytes a bs) ∨
      ∃ i rest, exec i (s.withPending rest) = .next t := by
  unfold step at h
  cases hf : fetch s with
  | idle =>
    rw [hf] at h
    cases h
    exact .inl rfl
  | stored u =>
    rw [hf] at h
    cases h
    obtain ⟨a, bs, rest, -, rfl⟩ := fetch_stored hf
    exact .inr (.inl ⟨a, bs, rest, rfl⟩)
  | run i u =>
    rw [hf] at h
    obtain ⟨rest, rfl⟩ := fetch_run hf
    exact .inr (.inr ⟨i, rest, h⟩)
  | refuse r =>
    rw [hf] at h
    cases h

/-- Only a command ends a step in a fault. -/
theorem step_fault {s : State} {f : Fault} (h : step s = .fault f) :
    ∃ i rest, exec i (s.withPending rest) = .fault f := by
  unfold step at h
  cases hf : fetch s with
  | run i u =>
    rw [hf] at h
    obtain ⟨rest, rfl⟩ := fetch_run hf
    exact ⟨i, rest, h⟩
  | idle | stored u | refuse r =>
    rw [hf] at h
    cases h

/-! ### The lifecycle check -/

/-- Every command that names a context, but INIT of it, begins with the lifecycle check (R25, R208). -/
theorem exec_eq_whenReady {i : Instr} {n : Nat} (hi : contextOf i = some n) (hne : i ≠ .init n) (s : State) :
    ∃ run, exec i s = whenReady n s run := by
  cases i with
  | init m =>
    cases hi
    exact absurd rfl hne
  | setout | encode | decode | enc6 | enc4 | encsym | pack10 =>
    cases hi
    simp only [exec, execSetout, execEncode, execDecode, execEnc6, execEnc4, execEncsym, execPack10]
    exact ⟨_, rfl⟩
  | dec6 | dec4 | decsym | unpack10 => cases hi

/-! ### What a command leaves unchanged -/

/-- One change of a command leaves the contexts it does not name (R34). -/
theorem Change.ctx_other {i : Instr} {s t : State} {n : Nat} (h : Change i s t) (hn : contextOf i ≠ some n) :
    t.ctx n = s.ctx n := by
  have other : ∀ {m}, contextOf i = some m → n ≠ m := fun hm he => hn (he ▸ hm)
  cases h with
  | reply _ _ r => rfl
  | init m _ => exact setCtx_ctx_other s _ (other rfl)
  | setout m buf len _ ready => exact setCtx_ctx_other s _ (other rfl)
  | enc6 m v _ rd ready | enc4 m v _ rd ready | encsym m b _ rd ready => exact setRd_ctx_other s rd (other rfl)
  | pack10 m sym _ buf ready room => exact appendSymbol_ctx_other _ _ _ (other rfl)
  | encode m inp _ b buf ready room => exact afterByte_ctx_other _ _ _ (other rfl)
  | decode m inp l _ b buf len ready bound room => exact afterStore_ctx_other _ _ _ (other rfl)

/-- A command leaves the contexts it does not name (R34). -/
theorem leaves_ctx_other {i : Instr} {s t : State} {n : Nat} (h : Leaves i s t) (hn : contextOf i ≠ some n) :
    t.ctx n = s.ctx n :=
  leaves_keeps (P := fun u => u.ctx n = s.ctx n) (fun _ _ hu hc => (hc.ctx_other hn).trans hu) h rfl

theorem Change.config {i : Instr} {s t : State} (h : Change i s t) : t.config = s.config := by
  cases h <;> rfl

theorem Change.pending {i : Instr} {s t : State} (h : Change i s t) : t.pending = s.pending := by
  cases h <;> rfl

theorem leaves_config {i : Instr} {s t : State} (h : Leaves i s t) : t.config = s.config :=
  leaves_keeps (P := fun u => u.config = s.config) (fun _ _ hu hc => hc.config.trans hu) h rfl

theorem leaves_pending {i : Instr} {s t : State} (h : Leaves i s t) : t.pending = s.pending :=
  leaves_keeps (P := fun u => u.pending = s.pending) (fun _ _ hu hc => hc.pending.trans hu) h rfl

/-- The memory a command may write contains the address. -/
def MayWrite (s : State) (i : Instr) (a : Nat) : Prop := ∃ r, writesOf s i = some r ∧ r.has a = true

/-- The memory a command's input stands in contains the address. -/
def MayRead (i : Instr) (a : Nat) : Prop := ∃ r, inputsOf i = some r ∧ r.has a = true

/-- An address inside the bound buffer is in its region. -/
theorem region_has_of_bound {o : OutSel} {buf len a : Nat} (hb : o = .bound buf len) (h1 : buf ≤ a)
    (h2 : a < buf + len) : ∃ r, o.region = some r ∧ r.has a = true :=
  ⟨⟨buf, len⟩, by rw [hb]; rfl, decide_eq_true ⟨h1, h2⟩⟩

/-- One change of a command leaves which memory it may write: SETOUT, which binds another buffer, writes none. -/
theorem Change.writesOf {i : Instr} {s t : State} (h : Change i s t) : writesOf t i = writesOf s i := by
  cases h with
  | reply _ _ r => cases i <;> rfl
  | init | setout | enc6 | enc4 | encsym => rfl
  | pack10 n sym _ buf ready room =>
    simp only [Machine.writesOf, appendSymbol_ctx_same, Context.pastSymbol]
  | encode n inp _ b buf ready room =>
    simp only [Machine.writesOf, afterByte_ctx_same, Context.pastSymbol]
  | decode n inp l _ b buf len ready bound room =>
    simp only [Machine.writesOf, afterStore_ctx_same]

/-- One change of a command leaves every byte outside the memory it may write (R65). -/
theorem Change.read_other {i : Instr} {s t : State} {a : Nat} (h : Change i s t) (ha : ¬ MayWrite s i a) :
    t.read a = s.read a := by
  cases h with
  | reply | init | setout | enc6 | enc4 | encsym => rfl
  | pack10 n sym _ buf ready room =>
    obtain ⟨len, hb, hlen, -⟩ := packRoom_ok room
    rw [appendSymbol_read, if_neg, if_neg] <;>
      exact fun he => ha (region_has_of_bound hb (by omega) (by omega))
  | encode n inp _ b buf ready room =>
    obtain ⟨len, hb, hlen, -⟩ := packRoom_ok room
    rw [afterByte_read, if_neg, if_neg] <;>
      exact fun he => ha (region_has_of_bound hb (by omega) (by omega))
  | decode n inp l _ b buf len ready bound room =>
    rw [afterStore_read, if_neg]
    exact fun he => ha (region_has_of_bound bound (by omega) (by omega))

/-- A command leaves every byte outside the memory it may write (R65). -/
theorem leaves_read_other {i : Instr} {s t : State} {a : Nat} (h : Leaves i s t) (ha : ¬ MayWrite s i a) :
    t.read a = s.read a := by
  have keeps : writesOf t i = writesOf s i ∧ t.read a = s.read a :=
    leaves_keeps (P := fun u => writesOf u i = writesOf s i ∧ u.read a = s.read a)
      (fun u v hu hc => ⟨hc.writesOf.trans hu.1,
        (hc.read_other (by rwa [MayWrite, hu.1])).trans hu.2⟩) h ⟨rfl, rfl⟩
  exact keeps.2

/-! ### Two commands that keep apart -/

theorem writesOf_congr {i : Instr} {s t : State} (h : ∀ n, contextOf i = some n → t.ctx n = s.ctx n) :
    writesOf t i = writesOf s i := by
  cases i with
  | encode n inp | decode n inp l | pack10 n sym => simp only [writesOf, h n rfl]
  | init | setout | enc6 | enc4 | encsym | dec6 | dec4 | decsym | unpack10 => rfl

/-- Two states agree on all that a command depends on: the tables, its context, the bytes it may write and its input. -/
structure SameOperands (i : Instr) (s t : State) : Prop where
  config : t.config = s.config
  ctx : ∀ n, contextOf i = some n → t.ctx n = s.ctx n
  written : ∀ a, MayWrite s i a → t.read a = s.read a
  input : ∀ a, MayRead i a → t.read a = s.read a

theorem SameOperands.mayWrite_iff {i : Instr} {s t : State} (h : SameOperands i s t) (a : Nat) :
    MayWrite t i a ↔ MayWrite s i a := by
  rw [MayWrite, MayWrite, writesOf_congr h.ctx]

theorem SameOperands.symm {i : Instr} {s t : State} (h : SameOperands i s t) : SameOperands i t s :=
  ⟨h.config.symm, fun n hn => (h.ctx n hn).symm, fun a ha => (h.written a ((h.mayWrite_iff a).1 ha)).symm,
    fun a ha => (h.input a ha).symm⟩

/-- A command that ends normally in one of two such states does so in the other, with the same result, and every context
and every byte on which the two agree ends the same. -/
theorem SameOperands.exec {i : Instr} {s s' t : State} (h : SameOperands i s s') (ht : exec i s = .next t) :
    ∃ t', exec i s' = .next t' ∧ t'.reply = t.reply ∧ (∀ n, s'.ctx n = s.ctx n → t'.ctx n = t.ctx n) ∧
      ∀ a, s'.read a = s.read a → t'.read a = t.read a := by
  obtain ⟨t', ht', hreply, hctx, hbytes⟩ := exec_local h.config h.ctx (fun r hr a ha => h.written a ⟨r, hr, ha⟩)
    (fun r hr a ha => h.input a ⟨r, hr, ha⟩) ht
  refine ⟨t', ht', hreply, fun n hn => ?_, fun a ha => ?_⟩
  · by_cases hi : contextOf i = some n
    · exact hctx n hi
    · rw [leaves_ctx_other (leaves_next ht') hi, hn, leaves_ctx_other (leaves_next ht) hi]
  · by_cases hi : MayWrite s i a
    · obtain ⟨r, hr, hra⟩ := hi
      exact hbytes r hr a hra
    · rw [leaves_read_other (leaves_next ht') (mt (h.mayWrite_iff a).1 hi), ha, leaves_read_other (leaves_next ht) hi]

/-- Two commands name no common context, and neither may write what the other may write or reads. -/
structure KeepApart (s : State) (i j : Instr) : Prop where
  contexts : ∀ n, contextOf i = some n → contextOf j ≠ some n
  writes : ∀ a, MayWrite s i a → ¬ MayWrite s j a
  writesInput : ∀ a, MayWrite s i a → ¬ MayRead j a
  readsOutput : ∀ a, MayRead i a → ¬ MayWrite s j a

theorem KeepApart.symm {s : State} {i j : Instr} (h : KeepApart s i j) : KeepApart s j i :=
  ⟨fun n hj hi => h.contexts n hi hj, fun a hj hi => h.writes a hi hj, fun a hj hi => h.readsOutput a hi hj,
    fun a hj hi => h.writesInput a hi hj⟩

theorem regionsOverlap_of_shared {x y : Option Region} {r q : Region} {a : Nat} (hx : x = some r) (hy : y = some q)
    (hr : r.has a = true) (hq : q.has a = true) : regionsOverlap x y = true := by
  rw [hx, hy]
  exact overlaps_of_shared hr hq

theorem keepApart_of_clash_none {s : State} {i j : Instr} (h : clash s i j = none) : KeepApart s i j := by
  obtain ⟨hcontexts, haccess⟩ := clash_none h
  simp only [accessesOverlap, Bool.or_eq_false_iff] at haccess
  obtain ⟨⟨hww, hwr⟩, hrw⟩ := haccess
  have no_shared : ∀ {x y : Option Region}, regionsOverlap x y = false → ∀ a, (∃ r, x = some r ∧ r.has a = true) →
      ¬ ∃ q, y = some q ∧ q.has a = true := fun hxy a ⟨r, hx, hr⟩ ⟨q, hy, hq⟩ =>
    Bool.eq_false_iff.1 hxy (regionsOverlap_of_shared hx hy hr hq)
  exact ⟨hcontexts, no_shared hww, no_shared hwr, no_shared hrw⟩

/-- A command leaves all that a command it keeps apart from depends on. -/
theorem KeepApart.sameOperands {s t : State} {i j : Instr} (h : KeepApart s i j) (hi : Leaves i s t) :
    SameOperands j s t :=
  ⟨leaves_config hi, fun n hj => leaves_ctx_other hi fun hn => h.contexts n hn hj,
    fun a hj => leaves_read_other hi fun ha => h.writes a ha hj,
    fun a hj => leaves_read_other hi fun ha => h.writesInput a ha hj⟩

/-! ### Commands issued at once that clash -/

theorem accessesOverlap_of_shared {s : State} {i j : Instr} {r q : Region} {a : Nat}
    (h : (writesOf s i = some r ∧ writesOf s j = some q) ∨ (writesOf s i = some r ∧ inputsOf j = some q) ∨
      (inputsOf i = some r ∧ writesOf s j = some q)) (hr : r.has a = true) (hq : q.has a = true) :
    accessesOverlap s i j = true := by
  simp only [accessesOverlap, Bool.or_eq_true]
  obtain ⟨hi, hj⟩ | ⟨hi, hj⟩ | ⟨hi, hj⟩ := h
  · exact .inl (.inl (regionsOverlap_of_shared hi hj hr hq))
  · exact .inl (.inr (regionsOverlap_of_shared hi hj hr hq))
  · exact .inr (regionsOverlap_of_shared hi hj hr hq)

/-- Commands that decode one after the other stand so among the decoded. -/
theorem decodeAll_two {cs ds es : List Command} {d e : Command} {i j : Instr} {is : List Instr}
    (h : decodeAll (cs ++ d :: (ds ++ e :: es)) = .ok is) (hd : decode d = .ok i) (he : decode e = .ok j) :
    ∃ js ks ls, is = js ++ i :: (ks ++ j :: ls) := by
  obtain ⟨js, _, -, hde, rfl⟩ := decodeAll_append h
  obtain ⟨_, _, hd', htail, rfl⟩ := decodeAll_cons hde
  obtain ⟨ks, _, -, hees, rfl⟩ := decodeAll_append htail
  obtain ⟨_, ls, he', -, rfl⟩ := decodeAll_cons hees
  cases hd.symm.trans hd'
  cases he.symm.trans he'
  exact ⟨js, ks, ls, rfl⟩

/-- Two commands that clash, wherever they stand in a request, leave it without a step (R212). -/
theorem step_refused_of_clash {s : State} {c d e : Command} {also cs ds es : List Command} {rest : List Request}
    {i j : Instr} {r : Refusal} (hp : s.pending = .issue c also :: rest)
    (hsplit : c :: also = cs ++ d :: (ds ++ e :: es)) (hd : decode d = .ok i) (he : decode e = .ok j)
    (hclash : clash s i j = some r) : ∃ f, step s = .refused f := by
  cases hall : decodeAll (c :: also) with
  | error err =>
    cases err with
    | reservedCode op => exact ⟨_, step_issue_reserved hp hall⟩
  | ok is =>
    obtain ⟨js, ks, ls, his⟩ := decodeAll_two (hsplit ▸ hall) hd he
    obtain ⟨k, ks', -, -, rfl⟩ := decodeAll_cons hall
    cases href : issueRefusal s k ks' with
    | some f => exact ⟨f, by rw [step_issue hp hall, href]⟩
    | none =>
      obtain ⟨hpair, -⟩ := issueRefusal_eq_none.1 href
      rw [his] at hpair
      obtain ⟨-, hpair, -⟩ := List.pairwise_append.1 hpair
      have hnone : clash s i j = none := List.rel_of_pairwise_cons hpair (by simp)
      cases hclash.symm.trans hnone

/-- Where the two are all there is, the refusal is that of their clash. -/
theorem step_pair_clash {s : State} {d e : Command} {rest : List Request} {i j : Instr} {r : Refusal}
    (hp : s.pending = .issue d [e] :: rest) (hd : decode d = .ok i) (he : decode e = .ok j)
    (hclash : clash s i j = some r) : step s = .refused r := by
  have hall : decodeAll [d, e] = .ok [i, j] := by simp only [decodeAll, hd, he]
  have href : issueRefusal s i [j] = some r := by simp [issueRefusal, firstClash, hclash]
  rw [step_issue hp hall, href]

/-- Of a request of two commands the earlier is the first. -/
theorem first_of_pair {c d e : Command} {cs ds es : List Command} (h : [c, e] = cs ++ d :: (ds ++ e :: es)) :
    d = c := by
  cases cs with
  | nil => exact (List.cons.inj h).1.symm
  | cons _ cs =>
    have := congrArg List.length h
    simp only [List.length_cons, List.length_nil, List.length_append] at this
    omega

/-- Two commands that clash leave a request without a step, which says why where the two are all there is. -/
theorem step_refused_by_clash {s : State} {c d e : Command} {also cs ds es : List Command} {rest : List Request}
    {i j : Instr} {r : Refusal} (hp : s.pending = .issue c also :: rest)
    (hsplit : c :: also = cs ++ d :: (ds ++ e :: es)) (hd : decode d = .ok i) (he : decode e = .ok j)
    (hclash : clash s i j = some r) : ∃ f, step s = .refused f ∧ (also = [e] → f = r) := by
  by_cases hpair : also = [e]
  · subst hpair
    obtain rfl := first_of_pair hsplit
    exact ⟨r, step_pair_clash hp hd he hclash, fun _ => rfl⟩
  · obtain ⟨f, hf⟩ := step_refused_of_clash hp hsplit hd he hclash
    exact ⟨f, hf, fun h => absurd h hpair⟩

/-! ### The statements -/

/-- Settles O49: one elementary change keeps the invariant, so every command does, and a store writes bytes alone. -/
theorem stepKeepsTheInvariant : Obligations.StepKeepsTheInvariant := by
  refine fun s h => ⟨fun t ht => ?_, fun f hf => ?_⟩
  · obtain rfl | ⟨a, bs, rest, rfl⟩ | ⟨i, rest, hi⟩ := step_next_cases ht
    · exact h
    · exact (h.withPending rest).writeBytes a bs
    · exact (h.withPending rest).leaves (leaves_next hi)
  · obtain ⟨i, rest, hi⟩ := step_fault hf
    exact (h.withPending rest).leaves (leaves_fault hi)

/-- Settles O43: no elementary change of a command reaches another context. -/
theorem otherContextsUntouched : Obligations.OtherContextsUntouched :=
  fun _ _ _ _ h hn => leaves_ctx_other h hn

/-- Settles O6, by the reason for which the two clash. -/
theorem clashingCommandsRefused : Obligations.ClashingCommandsRefused := by
  refine fun s c d e also cs ds es rest i j hp hsplit hd he => ⟨fun n hi hj => ?_,
    fun n m r q a hi hj hnm hr hq hra hqa => ?_, fun r q a hnone haccess hra hqa => ?_⟩
  · exact step_refused_by_clash hp hsplit hd he (clash_same hi hj)
  · have hover : buffersOverlap s i j = true := buffersOverlap_iff.2
      ⟨r, mem_buffersOf_iff_uses.2 hr, q, mem_buffersOf_iff_uses.2 hq, overlaps_of_shared hra hqa⟩
    exact step_refused_by_clash hp hsplit hd he (by rw [clash_contexts hi hj hnm, if_pos hover])
  · have hover := accessesOverlap_of_shared haccess hra hqa
    exact step_refused_by_clash hp hsplit hd he (by rw [clash_contextless hnone, if_pos hover])

/-- Settles O9: every arm but INIT's that names a context begins with the lifecycle check. -/
theorem uninitContextFaults : Obligations.UninitContextFaults := by
  intro i n s hi hne hl
  obtain ⟨run, hrun⟩ := exec_eq_whenReady hi hne s
  rw [hrun, whenReady_uninit hl]

/-- Settles O23, by the closed form of ENCODE's loop. -/
theorem encodeCompletesWhereThereIsRoom : Obligations.EncodeCompletesWhereThereIsRoom := by
  intro n inp s buf len hready hb hover heven hroom
  obtain ⟨t, ht, h⟩ := encodeBytes_run (s.inputBytes inp) hb ((even_iff _).2 heven) hroom
  refine ⟨_, exec_encode hready hover ht, rfl, h.ctx, h.others, fun a ha => h.bytes a fun hne => ?_, h.config,
    h.pending⟩
  by_contra hin
  exact ha ⟨hne, by omega⟩

/-- Settles O50: each command finds all it depends on as it was, whether or not the other has run before it. -/
theorem commandsThatDoNotClashCommute : Obligations.CommandsThatDoNotClashCommute := by
  intro i j s t u hclash hi hj
  have hapart := keepApart_of_clash_none hclash
  have hsame := hapart.sameOperands (leaves_next hi)
  obtain ⟨t', hj', hreplyj, hctxj, hbytesj⟩ := hsame.symm.exec hj
  have hsame' := hapart.symm.sameOperands (leaves_next hj')
  obtain ⟨u', hi', hreplyi, hctxi, hbytesi⟩ := hsame'.exec hi
  refine ⟨t', u', hj', hi', hreplyj, hreplyi, fun n => ?_, fun a => ?_, ?_, ?_⟩
  · by_cases hn : contextOf i = some n
    · have hnj := hapart.contexts n hn
      rw [hctxi n (hsame'.ctx n hn), leaves_ctx_other (leaves_next hj) hnj]
    · rw [leaves_ctx_other (leaves_next hi') hn, hctxj n (leaves_ctx_other (leaves_next hi) hn).symm]
  · by_cases ha : MayWrite s i a
    · have haj := mt (hsame.mayWrite_iff a).1 (hapart.writes a ha)
      rw [hbytesi a (hsame'.written a ha), leaves_read_other (leaves_next hj) haj]
    · have ha' := mt (hsame'.mayWrite_iff a).1 ha
      rw [leaves_read_other (leaves_next hi') ha', hbytesj a (leaves_read_other (leaves_next hi) ha).symm]
  · rw [leaves_config (leaves_next hi'), hsame'.config, leaves_config (leaves_next hj), hsame.config]
  · rw [leaves_pending (leaves_next hi'), leaves_pending (leaves_next hj'), leaves_pending (leaves_next hj),
      leaves_pending (leaves_next hi)]

end Sys2Proof.Machine
end

section
/-! PROOF. 20_memory.md: the stream of bits, the checks before a write, what a fault leaves in memory, and which bytes
and tables a command can reach (O19, O20, O21, O27, O28, O36, O44, O45). -/

namespace Sys2Proof.Machine

/-! ### PACK10 -/

/-- PACK10 of a ready context ends normally only where there is room, through one appended symbol. -/
theorem exec_pack10_next {n : Nat} {sym : Symbol} {s t : State} (hr : (s.ctx n).life = .ready)
    (h : exec (.pack10 n sym) s = .next t) :
    ∃ buf, packRoom n s = .ok buf ∧ t = (appendSymbol n buf sym s).withReply .done := by
  cases hp : packRoom n s with
  | error f =>
    rw [exec_pack10_error hr hp] at h
    cases h
  | ok buf =>
    rw [exec_pack10 hr hp] at h
    cases h
    exact ⟨buf, rfl, rfl⟩

@[simp] theorem withReply_streamBit (s : State) (r : Reply) (base i : Nat) :
    (s.withReply r).streamBit base i = s.streamBit base i := rfl

/-! ### Bits of memory that are set -/

/-- Every bit of memory set in the first state is set in the second. -/
def KeepsBits (s t : State) : Prop := ∀ a j, (s.read a).getLsbD j = true → (t.read a).getLsbD j = true

theorem KeepsBits.of_read_eq {s t : State} (h : ∀ a, t.read a = s.read a) : KeepsBits s t := fun a j hj => by
  rw [h a]
  exact hj

theorem KeepsBits.trans {s t u : State} (h : KeepsBits s t) (h' : KeepsBits t u) : KeepsBits s u :=
  fun a j hj => h' a j (h a j hj)

/-- A symbol is OR-ed into memory (R57), which clears no bit. -/
theorem keepsBits_appendSymbol (n buf : Nat) (sym : Symbol) (s : State) : KeepsBits s (appendSymbol n buf sym s) := by
  intro a j hj
  rw [appendSymbol_read]
  split
  · rw [BitVec.getLsbD_or, hj, Bool.true_or]
  · split
    · rw [BitVec.getLsbD_or, hj, Bool.true_or]
    · exact hj

theorem keepsBits_afterByte (n buf : Nat) (b : Byte) (s : State) : KeepsBits s (afterByte n buf b s) :=
  KeepsBits.trans (.of_read_eq fun _ => rfl) (keepsBits_appendSymbol n buf _ (s.setRd n _))

/-- One change of any command but DECODE clears no bit of memory. -/
theorem Change.keepsBits {i : Instr} {s t : State} (h : Change i s t) (hi : ∀ n inp l, i ≠ .decode n inp l) :
    KeepsBits s t := by
  cases h with
  | reply | init | setout | enc6 | enc4 | encsym => exact .of_read_eq fun _ => rfl
  | pack10 n sym _ buf ready room => exact keepsBits_appendSymbol n buf sym s
  | encode n inp _ b buf ready room => exact keepsBits_afterByte n buf b s
  | decode n inp l _ b buf len ready bound room => exact absurd rfl (hi n inp l)

theorem leaves_keepsBits {i : Instr} {s t : State} (h : Leaves i s t) (hi : ∀ n inp l, i ≠ .decode n inp l) :
    KeepsBits s t :=
  leaves_keeps (P := KeepsBits s) (fun _ _ hu hc => hu.trans (hc.keepsBits hi)) h (.of_read_eq fun _ => rfl)

/-! ### Where the room ends -/

theorem inputOverlaps_unbound (inp : Input) : inputOverlaps inp .unbound = false := by
  cases inp <;> rfl

/-- ENCODE's loop stops at the first byte whose checks fail. -/
theorem encodeBytes_cons_error {n : Nat} {b : Byte} {bs : List Byte} {s : State} {f : Fault}
    (h : packRoom n s = .error f) : encodeBytes n (b :: bs) s = .error f := by
  simp only [encodeBytes, encodeByte, h]

/-- ENCODE's loop keeps the binding and the reply. -/
theorem encodeBytes_outSel_and_reply {n : Nat} {xs : List Byte} {s t : State} (h : encodeBytes n xs s = .ok t) :
    (t.ctx n).outSel = (s.ctx n).outSel ∧ t.reply = s.reply :=
  (encodeBytes_keeps (n := n) (P := fun u => (u.ctx n).outSel = (s.ctx n).outSel ∧ u.reply = s.reply)
    (fun u b v hu hv => by
      obtain ⟨buf, -, rfl⟩ := encodeByte_ok hv
      rw [afterByte_ctx_same]
      exact hu) xs ⟨rfl, rfl⟩).1 t h

/-- Taking a result back: a state with the reply it had before. -/
theorem withReply_restore {s u : State} (h : u.reply = s.reply) (r : Reply) :
    { u.withReply r with reply := s.reply } = u := by
  rw [← h]
  rfl

/-- With no buffer bound DECODE stops at a valid first symbol. -/
theorem decodeSyms_unbound {n : Nat} {syms : List Symbol} {s : State} (hu : (s.ctx n).outSel = .unbound)
    (hne : decodedBytes s.config.tables syms ≠ []) :
    decodeSyms n syms s = .fault (.contractViolation .noOutput s) := by
  cases syms with
  | nil => exact absurd rfl hne
  | cons sym syms =>
    simp only [decodedBytes, decodeSyms] at hne ⊢
    cases hd : decodeSymbol s.config.tables sym with
    | none => simp only [hd, ne_eq, not_true_eq_false] at hne
    | some b => simp only [storeDecoded_unbound hu]

/-- The bytes DECODE's loop stored, read back one by one. -/
theorem Decoded.read_stored {n buf len : Nat} {out : List Byte} {s t : State} (h : Decoded n out s t)
    (hb : (s.ctx n).outSel = .bound buf len) {k : Nat} (hk : k < out.length) :
    t.read (buf + (s.ctx n).bytePos + k) = out[k] := by
  rw [h.stored buf len hb, if_pos (by omega), Nat.add_sub_cancel_left, List.getD_eq_getElem _ _ hk]

/-- No byte but those it stored. -/
theorem Decoded.read_other {n buf len : Nat} {out : List Byte} {s t : State} (h : Decoded n out s t)
    (hb : (s.ctx n).outSel = .bound buf len) {a : Nat}
    (ha : ¬ (buf + (s.ctx n).bytePos ≤ a ∧ a < buf + (s.ctx n).bytePos + out.length)) : t.read a = s.read a := by
  rw [h.stored buf len hb, if_neg ha]

/-! ### Input over the bound buffer -/

/-- ENCODE of a ready context is refused where its input overlaps the bound buffer (R63). -/
theorem ownRefusal_encode {n : Nat} {inp : Input} {s : State} (hr : (s.ctx n).life = .ready)
    (ho : inputOverlaps inp (s.ctx n).outSel = true) :
    ownRefusal s (.encode n inp) = some (.inputOverlapsOutput n) := if_pos ⟨hr, ho⟩

/-- So is DECODE. -/
theorem ownRefusal_decode {n l : Nat} {inp : Input} {s : State} (hr : (s.ctx n).life = .ready)
    (ho : inputOverlaps inp (s.ctx n).outSel = true) :
    ownRefusal s (.decode n inp l) = some (.inputOverlapsOutput n) := if_pos ⟨hr, ho⟩

theorem mem_of_decodeAll {cs : List Command} {d : Command} {i : Instr} {is : List Instr} (h : decodeAll cs = .ok is)
    (hd : decode d = .ok i) (hmem : d ∈ cs) : i ∈ is := by
  obtain ⟨xs, ys, rfl⟩ := List.append_of_mem hmem
  obtain ⟨js, _, -, hrest, rfl⟩ := decodeAll_append h
  obtain ⟨i', ks, hd', -, rfl⟩ := decodeAll_cons hrest
  cases hd.symm.trans hd'
  exact List.mem_append_right js List.mem_cons_self

/-- A command without a meaning by itself leaves the request it stands in without a step (R212): as the first by its
own answer, behind the first before any runs. -/
theorem step_refused_of_ownRefusal {s : State} {c d : Command} {also : List Command} {rest : List Request} {i : Instr}
    {r : Refusal} (hp : s.pending = .issue c also :: rest) (hmem : d ∈ c :: also) (hd : decode d = .ok i)
    (hown : ownRefusal s i = some r) : ∃ f, step s = .refused f := by
  cases hall : decodeAll (c :: also) with
  | error err =>
    cases err with
    | reservedCode op => exact ⟨_, step_issue_reserved hp hall⟩
  | ok is =>
    have hi := mem_of_decodeAll hall hd hmem
    obtain ⟨j, js, -, -, rfl⟩ := decodeAll_cons hall
    rw [step_issue hp hall]
    cases href : issueRefusal s j js with
    | some f => exact ⟨f, rfl⟩
    | none =>
      obtain rfl | hjs := List.mem_cons.1 hi
      · exact ⟨r, exec_refused_iff.2 ((ownRefusal_congr fun _ _ => rfl).trans hown)⟩
      · cases hown.symm.trans ((issueRefusal_eq_none.1 href).2 i hjs)

/-! ### The memory a command may write -/

theorem region_eq_some {o : OutSel} {r : Region} (h : o.region = some r) : o = .bound r.base r.len := by
  cases o with
  | unbound => cases h
  | bound buf len =>
    cases h
    rfl

/-- Only PACK10, ENCODE and DECODE may write memory, and only the buffer bound to their context (R65). -/
theorem mayWrite_cases {s : State} {i : Instr} {a : Nat} (h : MayWrite s i a) :
    ∃ n buf len, (s.ctx n).outSel = .bound buf len ∧ buf ≤ a ∧ a < buf + len ∧
      ((∃ sym, i = .pack10 n sym) ∨ (∃ inp, i = .encode n inp) ∨ ∃ inp l, i = .decode n inp l) := by
  obtain ⟨r, hr, ha⟩ := h
  obtain ⟨h1, h2⟩ : r.base ≤ a ∧ a < r.base + r.len := of_decide_eq_true ha
  cases i with
  | pack10 n sym => exact ⟨n, r.base, r.len, region_eq_some hr, h1, h2, .inl ⟨sym, rfl⟩⟩
  | encode n inp => exact ⟨n, r.base, r.len, region_eq_some hr, h1, h2, .inr (.inl ⟨inp, rfl⟩)⟩
  | decode n inp l => exact ⟨n, r.base, r.len, region_eq_some hr, h1, h2, .inr (.inr ⟨inp, l, rfl⟩)⟩
  | init | setout | enc6 | enc4 | dec6 | dec4 | encsym | decsym | unpack10 => cases hr

/-! ### The statements -/

/-- Settles O19: where PACK10 ends normally its offset is even, and one appended symbol is ten stream bits. -/
theorem pack10AppendsTenStreamBits : Obligations.Pack10AppendsTenStreamBits := by
  intro n sym s t buf len hready hb h
  obtain ⟨buf', hroom, rfl⟩ := exec_pack10_next hready h
  obtain ⟨len', hb', -, heven⟩ := packRoom_ok hroom
  cases hb.symm.trans hb'
  refine ⟨?_, fun i => ?_⟩
  · rw [withReply_ctx, appendSymbol_ctx_same, pastSymbol_cursorBit heven]
  · rw [withReply_streamBit, appendSymbol_streamBit n buf sym s heven]

/-- Settles O21: PACK10 and ENCODE change memory by OR-ing symbols into it. -/
theorem encoderNeverClears : Obligations.EncoderNeverClears := by
  intro i n s t hi h
  refine leaves_keepsBits h fun m inp l hdec => ?_
  obtain ⟨sym, rfl⟩ | ⟨inp', rfl⟩ := hi <;> cases hdec

/-- Settles O27: ENCODE's loop over the whole input is the loop over the bytes before, then the check that fails. -/
theorem encodeStopsWhereTheRoomEnds : Obligations.EncodeStopsWhereTheRoomEnds := by
  refine ⟨fun n inp xs ys b s t buf len hb ho hin hxs hfull => ?_, fun n inp s hready hu hne => ?_⟩
  · obtain ⟨hready, -, u, (hloop : encodeBytes n xs s = .ok u), rfl⟩ := exec_encode_next hxs
    obtain ⟨hsel, hreply⟩ := encodeBytes_outSel_and_reply hloop
    have hroom := packRoom_full (hsel.trans hb) hfull
    rw [withReply_restore hreply]
    refine exec_encode_error hready ho ?_
    calc encodeBytes n (s.inputBytes inp) s
        = (encodeBytes n xs s).bind (encodeBytes n (b :: ys)) := by rw [hin, encodeBytes_append]
      _ = encodeBytes n (b :: ys) u := by rw [hloop]; rfl
      _ = .error (.contractViolation .outputOverrun u) := encodeBytes_cons_error hroom
  · obtain ⟨b, bs, hin⟩ := List.exists_cons_of_ne_nil hne
    refine exec_encode_error hready (hu ▸ inputOverlaps_unbound inp) ?_
    rw [hin]
    exact encodeBytes_cons_error (packRoom_unbound hu)

/-- Settles O28: the overlap is the command's own refusal, which any request it stands in shares. -/
theorem overlappingInputRefused : Obligations.OverlappingInputRefused := by
  refine ⟨fun n base m buf len a l s hready hb h1 h2 h3 h4 => ?_,
    fun s c d also rest n inp hp hmem hd hready ho => ?_⟩
  · have ho : inputOverlaps (.buffer base m) (s.ctx n).outSel = true :=
      regionsOverlap_of_shared rfl (congrArg OutSel.region hb) (decide_eq_true ⟨h1, h2⟩) (decide_eq_true ⟨h3, h4⟩)
    exact ⟨exec_refused_iff.2 (ownRefusal_encode hready ho), exec_refused_iff.2 (ownRefusal_decode hready ho)⟩
  · obtain hd | ⟨l, hd⟩ := hd
    · exact step_refused_of_ownRefusal hp hmem hd (ownRefusal_encode hready ho)
    · exact step_refused_of_ownRefusal hp hmem hd (ownRefusal_decode hready ho)

/-- Settles O36: DECODE's loop over the symbols stores the bytes that fit and stops at the next. -/
theorem decodeStopsWhereTheRoomEnds : Obligations.DecodeStopsWhereTheRoomEnds := by
  intro n inp l s out hready ho h10 hl hout
  rw [exec_decode hready ho h10 hl]
  refine ⟨fun hu hne => decodeSyms_unbound hu (hout ▸ hne), fun buf len hb hpos hover => ?_⟩
  obtain ⟨t, ht, hreply, h⟩ := decodeSyms_overrun _ hb hpos (hout ▸ hover)
  rw [← hout] at h
  have hlen : (out.take (len - (s.ctx n).bytePos)).length = len - (s.ctx n).bytePos := by
    rw [List.length_take]
    omega
  refine ⟨t, ht, hreply, ?_, fun k hk hfit => ?_, h.others, fun a ha => h.read_other hb (by omega), h.config,
    h.pending⟩
  · rw [h.ctx, hlen, Nat.add_sub_cancel' hpos]
  · rw [h.read_stored hb (by omega), List.getElem_take]

/-- Settles O44: a byte that no command may write keeps its value. -/
theorem memoryWrittenOnlyInsideTheBoundBuffer : Obligations.MemoryWrittenOnlyInsideTheBoundBuffer :=
  fun _ _ _ _ h hne => mayWrite_cases (not_not.1 fun ha => hne (leaves_read_other h ha))

/-- Settles O45: no elementary change of a command reaches the tables, and a store writes bytes alone. -/
theorem tablesNeverChange : Obligations.TablesNeverChange := by
  refine ⟨fun i s t h => ⟨leaves_config h, leaves_pending h⟩, fun s t h => ?_⟩
  obtain rfl | ⟨a, bs, rest, rfl⟩ | ⟨i, rest, hi⟩ := step_next_cases h
  · rfl
  · obtain ⟨-, hconfig, -, -⟩ := writeBytes_fields bs (s.withPending rest) a
    exact hconfig
  · exact (leaves_config (leaves_next hi)).trans (withPending_config s rest)

/-- Settles O20: each failed check of the room leaves the state it was made in. -/
theorem pack10ChecksItsRoom : Obligations.Pack10ChecksItsRoom :=
  fun _ _ _ hready =>
    ⟨fun hu => exec_pack10_error hready (packRoom_unbound hu),
      fun _ _ hb hfull => exec_pack10_error hready (packRoom_full hb hfull)⟩

end Sys2Proof.Machine
end

section
/-! PROOF. 30_encoding.md: the command codes with the decoder and the encoder, the operands out of range, ENCODE of one
byte by its two steps, and the default tables (O1, O2, O3, O12, O22, O32, O33). -/

namespace Sys2Proof.Machine

/-! ### The decoder against the encoder -/

/-- A command as its row of R97 reads it: the code and the ports the row names, every other port zero or empty. -/
def namedPorts (c : Command) : Command :=
  let reads (p : Port) : Bool := (operandPorts c.op).contains p
  { op := c.op
    ctx := if reads .ctx then c.ctx else 0
    buf := if reads .buf then c.buf else 0
    outLen := if reads .outLen then c.outLen else 0
    input := if reads .input then c.input else .bytes []
    bitLength := if reads .bitLength then c.bitLength else 0
    value := if reads .value then c.value else 0
    byte := if reads .byte then c.byte else 0
    symbol := if reads .symbol then c.symbol else 0
    index := if reads .index then c.index else 0 }

theorem decode_encode (i : Instr) : decode (encode i) = .ok i := by
  cases i <;> rfl

theorem encode_canonical (i : Instr) : (encode i).canonical = true := by
  cases i <;> rfl

/-- Encoding what a command decodes to loses nothing but the ports its row does not name. -/
theorem encode_of_decode {c : Command} {i : Instr} (h : decode c = .ok i) : encode i = namedPorts c := by
  obtain ⟨op, ctx, buf, outLen, input, bitLength, value, byte, symbol, index⟩ := c
  unfold decode at h
  split at h
  case h_13 => cases h
  all_goals
    rename_i hop
    cases hop
    cases h
    rfl

/-- A port the row of the code does not name carries nothing in a canonical command. -/
theorem blank_of_canonical {c : Command} {p : Port} (h : c.canonical = true)
    (hp : ¬ (operandPorts c.op).contains p = true) : c.blank p = true :=
  have hall : ((operandPorts c.op).contains p || c.blank p) = true := List.all_eq_true.1 h p (by cases p <;> decide)
  (Bool.or_eq_true_iff.1 hall).resolve_left hp

theorem namedPort_of_canonical {α : Type} [BEq α] [LawfulBEq α] {c : Command} (h : c.canonical = true) (p : Port)
    {x d : α} (hp : c.blank p = (x == d)) : (if (operandPorts c.op).contains p then x else d) = x :=
  ite_eq_left_iff.2 fun hn => (eq_of_beq (hp.symm.trans (blank_of_canonical h hn))).symm

/-- A canonical command is no more than the ports of its row. -/
theorem namedPorts_of_canonical {c : Command} (h : c.canonical = true) : namedPorts c = c := by
  simp only [namedPorts, namedPort_of_canonical h .ctx rfl, namedPort_of_canonical h .buf rfl,
    namedPort_of_canonical h .outLen rfl, namedPort_of_canonical h .input rfl, namedPort_of_canonical h .bitLength rfl,
    namedPort_of_canonical h .value rfl, namedPort_of_canonical h .byte rfl, namedPort_of_canonical h .symbol rfl,
    namedPort_of_canonical h .index rfl]

/-! ### Reserved codes -/

/-- The decoder fails on the reserved codes alone, and names the code (R98). -/
theorem decode_error_iff {c : Command} {e : DecodeError} :
    decode c = .error e ↔ 12 ≤ c.op.toNat ∧ e = .reservedCode c.op := by
  unfold decode
  split
  case h_13 =>
    have hop : 12 ≤ c.op.toNat := by
      simp only [imp_false] at *
      bv_omega
    exact ⟨fun h => ⟨hop, (Except.error.inj h).symm⟩, fun ⟨_, he⟩ => congrArg _ he.symm⟩
  all_goals
    rename_i hop
    simp [hop]

/-- The first reserved code of a list of commands is the one it fails with. -/
theorem decodeAll_reserved {ds es : List Command} {d : Command} (hds : ∀ e ∈ ds, e.op.toNat < 12)
    (hd : 12 ≤ d.op.toNat) : decodeAll (ds ++ d :: es) = .error (.reservedCode d.op) := by
  induction ds with
  | nil => simp only [List.nil_append, decodeAll, decode_error_iff.2 ⟨hd, rfl⟩]
  | cons c ds ih =>
    obtain ⟨hc, hds⟩ := List.forall_mem_cons.1 hds
    simp only [List.cons_append, decodeAll, ih hds]
    cases hdec : decode c with
    | error e => exact absurd (decode_error_iff.1 hdec).1 (by omega)
    | ok i => rfl

/-! ### Operands out of range (R99 (a)) -/

section range
variable {n v c : Nat} {s : State}

theorem exec_enc6_out_of_range (hr : (s.ctx n).life = .ready) (hv : 31 < v) :
    exec (.enc6 n v) s = .fault (.contractViolation .valueOutOfRange s) := by
  rw [exec, execEnc6, whenReady_ready hr, if_pos hv, raise]

theorem exec_enc4_out_of_range (hr : (s.ctx n).life = .ready) (hv : 7 < v) :
    exec (.enc4 n v) s = .fault (.contractViolation .valueOutOfRange s) := by
  rw [exec, execEnc4, whenReady_ready hr, if_pos hv, raise]

theorem exec_dec6_out_of_range (hc : 63 < c) :
    exec (.dec6 c) s = .fault (.contractViolation .valueOutOfRange s) := by
  rw [exec, execDec6, if_pos hc, raise]

theorem exec_dec4_out_of_range (hc : 15 < c) :
    exec (.dec4 c) s = .fault (.contractViolation .valueOutOfRange s) := by
  rw [exec, execDec4, if_pos hc, raise]

end range

/-! ### ENCSYM and then PACK10 -/

/-- ENCSYM ends normally on a ready context alone, with the symbol and the disparity of its byte. -/
theorem exec_encsym_next {n : Nat} {b : Byte} {s t : State} (h : exec (.encsym n b) s = .next t) :
    (s.ctx n).life = .ready ∧ t = (s.setRd n (encodeSymbol s.config (s.ctx n).rd b).2).withReply
      (.symbol (encodeSymbol s.config (s.ctx n).rd b).1) := by
  rw [exec, execEncsym] at h
  obtain ⟨-, h⟩ | ⟨hr, h⟩ := whenReady_cases h
  · cases h
  · cases h
    exact ⟨hr, rfl⟩

/-- The packer's checks read neither the disparity nor the reply. -/
theorem packRoom_of_setRd_withReply {n buf : Nat} {s : State} {rd : Disparity} {r : Reply}
    (h : packRoom n ((s.setRd n rd).withReply r) = .ok buf) : packRoom n s = .ok buf := by
  obtain ⟨len, hb, hroom, heven⟩ := packRoom_ok h
  rw [withReply_ctx, setRd_ctx_same] at hb hroom heven
  exact packRoom_of_room hb hroom heven

/-- ENCODE of one byte given with the command, past its checks. -/
theorem exec_encode_byte {n buf : Nat} {b : Byte} {s : State} (hr : (s.ctx n).life = .ready)
    (hp : packRoom n s = .ok buf) :
    exec (.encode n (.bytes [b])) s = .next ((afterByte n buf b s).withReply .done) := by
  have hloop : encodeBytes n (s.inputBytes (.bytes [b])) s = .ok (afterByte n buf b s) := by
    simp only [State.inputBytes, encodeBytes, encodeByte_of_room hp]
  exact exec_encode hr rfl hloop

/-! ### The default tables -/

/-- The standard tables give back every value from its codeword at either disparity (R88 item 6), whatever `DEC4_A7`. -/
theorem standardTables_roundTrip (a7 : Dec4A7) : Tables.RoundTrip (standardTables a7) where
  low v rd := by cases a7 <;> cases rd <;> decide +revert
  high v rd := by cases a7 <;> cases rd <;> decide +revert

/-- Every valid entry of the default `DEC6TAB` stands at an output of its value (R91). -/
theorem defaultDec6_emitted : ∀ (c : Code6), ∀ v ∈ defaultConfig.tables.dec6At c,
    subOut (defaultConfig.tables.enc6At v) .negative = c ∨ subOut (defaultConfig.tables.enc6At v) .positive = c := by
  decide

/-- Every valid entry of the default `DEC4TAB` stands at an output of its value (R92). -/
theorem defaultDec4_emitted : ∀ (c : Code4), ∀ v ∈ defaultConfig.tables.dec4At c,
    subOut (defaultConfig.tables.enc4At v) .negative = c ∨ subOut (defaultConfig.tables.enc4At v) .positive = c := by
  decide

/-! ### The statements -/

/-- Settles O2: what a command decodes to encodes the ports its row names, and a canonical command is no more. -/
theorem decodeEncodeAgree : Obligations.DecodeEncodeAgree :=
  ⟨fun i => ⟨decode_encode i, encode_canonical i⟩,
    fun _ _ hcanon hdec => (encode_of_decode hdec).trans (namedPorts_of_canonical hcanon)⟩

/-- Settles O12, by the four commands that can be ill-formed. -/
theorem valuesOutOfRangeFault : Obligations.ValuesOutOfRangeFault := by
  intro i s hwf hready
  cases i with
  | enc6 n v => exact exec_enc6_out_of_range (hready n rfl) (Nat.not_lt.1 (of_decide_eq_false hwf))
  | enc4 n v => exact exec_enc4_out_of_range (hready n rfl) (Nat.not_lt.1 (of_decide_eq_false hwf))
  | dec6 c => exact exec_dec6_out_of_range (Nat.not_lt.1 (of_decide_eq_false hwf))
  | dec4 c => exact exec_dec4_out_of_range (Nat.not_lt.1 (of_decide_eq_false hwf))
  | init | setout | encode | decode | encsym | pack10 | decsym | unpack10 => cases hwf

/-- Settles O22: both ways append the same symbol at the same place, and the reply between them is read by neither. -/
theorem encodeByteIsEncsymThenPack10 : Obligations.EncodeByteIsEncsymThenPack10 := by
  intro n b sym s t u hsym hreply hpack
  obtain ⟨hready, rfl⟩ := exec_encsym_next hsym
  cases hreply
  obtain ⟨buf, hroom, rfl⟩ := exec_pack10_next (by rwa [withReply_ctx, setRd_ctx_same]) hpack
  exact exec_encode_byte hready (packRoom_of_setRd_withReply hroom)

/-- Settles O32: the codewords decode to their values, and every valid entry is at a codeword. -/
theorem defaultDecodeTablesAreInverse : Obligations.DefaultDecodeTablesAreInverse := by
  have inverse := standardTables_roundTrip .invalid
  refine ⟨fun c v => ⟨fun hv => ?_, ?_⟩, fun c v => ⟨fun hv => ?_, ?_⟩⟩
  · exact (defaultDec6_emitted c v hv).elim (⟨_, ·⟩) (⟨_, ·⟩)
  · rintro ⟨rd, rfl⟩
    exact inverse.low v rd
  · exact (defaultDec4_emitted c v hv).elim (⟨_, ·⟩) (⟨_, ·⟩)
  · rintro ⟨rd, rfl⟩
    exact inverse.high v rd

/-- Settles O33: the order counts for the outputs of 0x4a alone, and `DEC4_A7` for none of the entries R88 names. -/
theorem defaultsConform : Obligations.DefaultsConform := fun o a7 =>
  { zero6 := rfl
    zero4 := rfl
    seven := ⟨rfl, rfl⟩
    twentyThree := rfl
    first4a := by cases o <;> cases a7 <;> decide
    second4a := by cases o <;> cases a7 <;> decide
    decoded6 := ⟨rfl, rfl, rfl, rfl, rfl⟩
    decoded4 := ⟨rfl, rfl, rfl, rfl, rfl⟩
    roundTrip := standardTables_roundTrip a7
    someInvalid := .inl ⟨0, rfl⟩ }

/-- Settles O1, row by row of R97. -/
theorem codesSelectTheirCommands : Obligations.CodesSelectTheirCommands :=
  ⟨fun _ => rfl, fun _ _ _ => rfl, fun _ _ => rfl, fun _ _ _ => rfl, fun _ _ => rfl, fun _ _ => rfl, fun _ => rfl,
    fun _ => rfl, fun _ _ => rfl, fun _ _ => rfl, fun _ => rfl, fun _ _ => rfl⟩

/-- Settles O3: a request fails to decode at its first reserved code, and only at one. -/
theorem reservedCodesRefused : Obligations.ReservedCodesRefused := by
  refine ⟨fun s c d also ds es rest hp hsplit hds hd => ?_, fun c hc => ?_⟩
  · exact step_issue_reserved hp (hsplit ▸ decodeAll_reserved hds hd)
  · cases hdec : decode c with
    | error e => exact absurd (decode_error_iff.1 hdec).1 (by omega)
    | ok i => exact ⟨i, rfl⟩

end Sys2Proof.Machine
end

section
/-! PROOF. 40_subsymbol_encoder.md: what one run of a sub-symbol encoder answers and moves, the excess the disparity
tracks, and which commands move the disparity (O10, O11, O13, O14, O42). -/

namespace Sys2Proof.Machine

/-! ### The codeword of an entry (R121) -/

section entry
variable {w : Nat} {e : EncEntry w}

theorem subOut_negative (hi : e.invertOnNegative = true) : subOut e .negative = ~~~e.code := if_pos ⟨rfl, hi⟩

@[simp] theorem subOut_positive : subOut e .positive = e.code := if_neg (by simp)

theorem subOut_of_not_inverts (hi : e.invertOnNegative = false) (rd : Disparity) : subOut e rd = e.code :=
  if_neg (by simp [hi])

/-- `subOut` with its complement as a number (R11 (a)). -/
theorem subOut_eq_ofNat (e : EncEntry w) (rd : Disparity) : subOut e rd =
    if rd = .negative ∧ e.invertOnNegative = true then BitVec.ofNat w (2 ^ w - 1 - e.code.toNat) else e.code := by
  rw [← not_eq_ofNat, subOut]

end entry

theorem enc6At_ofNat (t : Tables) {v : Nat} (h : v < 32) : t.enc6At (BitVec.ofNat 5 v) = t.enc6[v] := by
  simp [Tables.enc6At, Nat.mod_eq_of_lt h]

theorem enc4At_ofNat (t : Tables) {v : Nat} (h : v < 8) : t.enc4At (BitVec.ofNat 3 v) = t.enc4[v] := by
  simp [Tables.enc4At, Nat.mod_eq_of_lt h]

/-! ### One run of an encoder -/

/-- A sub-symbol encoder has run on context `n` with entry `e`: it answers the codeword in the form `form`, and of the
rest only the context's disparity may differ (R121). -/
structure SubEncoded {w : Nat} (form : BitVec w → Reply) (n : Nat) (e : EncEntry w) (s t : State) : Prop where
  reply : t.reply = some (form (subOut e (s.ctx n).rd))
  ctx : t.ctx n = { s.ctx n with rd := (s.ctx n).rd.toggle e.togglesDisparity }
  frame : OnlyContext n s t

theorem onlyContext_setRd_withReply (n : Nat) (s : State) (rd : Disparity) (r : Reply) :
    OnlyContext n s ((s.setRd n rd).withReply r) :=
  ⟨fun _ hm => setRd_ctx_other s rd hm, fun _ => rfl, rfl, rfl⟩

section run
variable {n v : Nat} {s : State}

theorem exec_enc6_subEncoded (hr : (s.ctx n).life = .ready) (hv : v < 32) {e : EncEntry 6}
    (he : s.config.tables.enc6At (BitVec.ofNat 5 v) = e) :
    ∃ t, exec (.enc6 n v) s = .next t ∧ SubEncoded .code6 n e s t :=
  ⟨_, exec_enc6 hr hv, by rw [he]; rfl, by rw [he]; exact setRd_ctx_same s n _,
    onlyContext_setRd_withReply n s _ _⟩

theorem exec_enc4_subEncoded (hr : (s.ctx n).life = .ready) (hv : v < 8) {e : EncEntry 4}
    (he : s.config.tables.enc4At (BitVec.ofNat 3 v) = e) :
    ∃ t, exec (.enc4 n v) s = .next t ∧ SubEncoded .code4 n e s t :=
  ⟨_, exec_enc4 hr hv, by rw [he]; rfl, by rw [he]; exact setRd_ctx_same s n _,
    onlyContext_setRd_withReply n s _ _⟩

end run

section encoded
variable {w n : Nat} {form : BitVec w → Reply} {e : EncEntry w} {s t u : State}

theorem SubEncoded.life (h : SubEncoded form n e s t) : (t.ctx n).life = (s.ctx n).life := by rw [h.ctx]

theorem SubEncoded.rd (h : SubEncoded form n e s t) :
    (t.ctx n).rd = (s.ctx n).rd.toggle e.togglesDisparity := by rw [h.ctx]

/-- An entry that inverts and toggles, run twice from Negative, gives both its codewords and brings the disparity
back (R125). -/
theorem SubEncoded.twice (ht : SubEncoded form n e s t) (hu : SubEncoded form n e t u)
    (hi : e.invertOnNegative = true) (htog : e.togglesDisparity = true) (hrd : (s.ctx n).rd = .negative) :
    t.reply = some (form (~~~e.code)) ∧ u.reply = some (form e.code) ∧ (u.ctx n).rd = .negative := by
  have hmid : (t.ctx n).rd = .positive := by rw [ht.rd, hrd, htog]; rfl
  refine ⟨?_, ?_, ?_⟩
  · rw [ht.reply, hrd, subOut_negative hi]
  · rw [hu.reply, hmid, subOut_positive]
  · rw [hu.rd, hmid, htog]
    rfl

end encoded

theorem not_ne_self {w : Nat} (hw : 0 < w) (c : BitVec w) : ~~~c ≠ c := by
  intro h
  have hbit := congrArg (·.getLsbD 0) h
  simp [hw] at hbit

/-! ### The excess of ones over zeros (R126) -/

/-- The complement has a one for every zero. -/
theorem excess_not {w : Nat} (c : BitVec w) : excess (~~~c) = - excess c := by
  have hones : (List.range w).countP (fun i => (~~~c).getLsbD i) =
      (List.range w).countP (fun i => ¬ c.getLsbD i) :=
    List.countP_congr fun i hi => by simp [List.mem_range.mp hi]
  have hsum := (List.range w).length_eq_countP_add_countP (fun i => c.getLsbD i)
  rw [List.length_range, ← hones] at hsum
  unfold excess
  omega

/-- An entry that toggles has two zeros more than ones and is complemented at Negative; one that does not has as many of
each. -/
def balanced {w : Nat} (e : EncEntry w) : Bool :=
  if e.togglesDisparity then decide (excess e.code = -2) && e.invertOnNegative else decide (excess e.code = 0)

/-- With a balanced entry the disparity goes on as the running excess does, 0 at Negative and 2 at Positive
(R126 (e)). -/
theorem subEnc_tracks_excess {w : Nat} {e : EncEntry w} (h : balanced e = true) (rd : Disparity) :
    excess (subEnc e rd).1 + (if rd = .positive then 2 else 0) = if (subEnc e rd).2 = .positive then 2 else 0 := by
  rw [balanced] at h
  simp only [subEnc]
  by_cases htog : e.togglesDisparity = true
  · simp only [htog, if_true, Bool.and_eq_true, decide_eq_true_eq] at h
    obtain ⟨hexc, hinv⟩ := h
    cases rd with
    | negative => simp [htog, subOut_negative hinv, excess_not, hexc, Disparity.flip]
    | positive => simp [htog, hexc, Disparity.flip]
  · simp only [htog, Bool.false_eq_true, if_false, decide_eq_true_eq] at h
    cases rd with
    | negative =>
      by_cases hinv : e.invertOnNegative = true
      · simp [htog, subOut_negative hinv, excess_not, h]
      · simp [htog, subOut_of_not_inverts (Bool.eq_false_iff.2 hinv), h]
    | positive => simp [htog, h]

theorem standardTables_enc6_balanced (a7 : Dec4A7) : ∀ v, balanced ((standardTables a7).enc6At v) = true := by
  cases a7 <;> decide

theorem standardTables_enc4_balanced (a7 : Dec4A7) : ∀ v, balanced ((standardTables a7).enc4At v) = true := by
  cases a7 <;> decide

/-! ### What moves the disparity (R120) -/

/-- INIT and the commands that encode. -/
def movesDisparity : Instr → Bool
  | .init _ | .enc6 _ _ | .enc4 _ _ | .encsym _ _ | .encode _ _ => true
  | _ => false

/-- One change of any other command leaves every disparity (R120, R163). -/
theorem Change.rd_of_not_moves {i : Instr} {s t : State} (h : Change i s t) (hi : movesDisparity i = false) (n : Nat) :
    (t.ctx n).rd = (s.ctx n).rd := by
  by_cases hn : contextOf i = some n
  case neg => rw [h.ctx_other hn]
  cases h with
  | reply => rfl
  | setout =>
    cases hn
    rw [setCtx_ctx_same]
  | pack10 =>
    cases hn
    rw [appendSymbol_ctx_same]
    rfl
  | decode =>
    cases hn
    rw [afterStore_ctx_same]
  | init | enc6 | enc4 | encsym | encode => cases hi

/-- Any other command leaves every disparity. -/
theorem leaves_rd_of_not_moves {i : Instr} {s t : State} (h : Leaves i s t) (hi : movesDisparity i = false) (n : Nat) :
    (t.ctx n).rd = (s.ctx n).rd :=
  leaves_keeps (P := fun u => (u.ctx n).rd = (s.ctx n).rd) (fun _ _ hu hc => (hc.rd_of_not_moves hi n).trans hu) h rfl

/-- INIT ends normally, with its context at the start state (R190). -/
theorem leaves_init {n : Nat} {s t : State} (h : Leaves (.init n) s t) : t.ctx n = Context.afterInit := by
  obtain h | ⟨f, h, -⟩ := h <;> cases exec_init.symm.trans h
  rw [withReply_ctx, setCtx_ctx_same]

/-! ### The statements -/

/-- Settles O10, by the run of ENC6 and the complement as a number. -/
theorem enc6ReturnsCodeword : Obligations.Enc6ReturnsCodeword := by
  intro n v s hv hready
  obtain ⟨t, ht, henc⟩ := exec_enc6_subEncoded hready hv (enc6At_ofNat _ hv)
  exact ⟨t, ht, by rw [henc.reply, subOut_eq_ofNat]; rfl, henc.ctx, henc.frame⟩

/-- Settles O11, by the run of ENC4 and the complement as a number. -/
theorem enc4ReturnsCodeword : Obligations.Enc4ReturnsCodeword := by
  intro n v s hv hready
  obtain ⟨t, ht, henc⟩ := exec_enc4_subEncoded hready hv (enc4At_ofNat _ hv)
  exact ⟨t, ht, by rw [henc.reply, subOut_eq_ofNat]; rfl, henc.ctx, henc.frame⟩

/-- Settles O13: 0 inverts and toggles, 7 inverts and does not toggle, 23 toggles. -/
theorem freshContextLiterals : Obligations.FreshContextLiterals := by
  intro n s hconf hready hrd
  refine ⟨?_, ?_, ?_⟩
  · obtain ⟨t, ht, henct⟩ := exec_enc6_subEncoded hready (by decide) hconf.zero6
    obtain ⟨u, hu, hencu⟩ := exec_enc6_subEncoded (henct.life.trans hready) (by decide)
      (henct.frame.config ▸ hconf.zero6)
    obtain ⟨hreplyt, hreplyu, hback⟩ := henct.twice hencu rfl rfl hrd
    exact ⟨t, u, ht, hreplyt, hu, hreplyu, hback⟩
  · obtain ⟨t, ht, henct⟩ := exec_enc4_subEncoded hready (by decide) hconf.zero4
    obtain ⟨u, hu, hencu⟩ := exec_enc4_subEncoded (henct.life.trans hready) (by decide)
      (henct.frame.config ▸ hconf.zero4)
    obtain ⟨hreplyt, hreplyu, hback⟩ := henct.twice hencu rfl rfl hrd
    exact ⟨t, u, ht, hreplyt, hu, hreplyu, hback⟩
  · obtain ⟨htog7, hinv7⟩ := hconf.seven
    obtain ⟨t, ht, henct⟩ := exec_enc6_subEncoded (v := 7) hready (by decide) (Eq.refl (s.config.tables.enc6At 7))
    have hreadyt := henct.life.trans hready
    have hconft := henct.frame.config
    obtain ⟨u, hu, hencu⟩ := exec_enc6_subEncoded (v := 23) (e := s.config.tables.enc6At 23) hreadyt (by decide)
      (by rw [hconft]; rfl)
    have hreadyu := hencu.life.trans hreadyt
    have hconfu := hencu.frame.config.trans hconft
    obtain ⟨v, hv, hencv⟩ := exec_enc6_subEncoded (v := 7) (e := s.config.tables.enc6At 7) hreadyu (by decide)
      (by rw [hconfu]; rfl)
    have hrdt : (t.ctx n).rd = .negative := by rw [henct.rd, hrd, htog7, toggle_false]
    have hrdu : (u.ctx n).rd = .positive := by rw [hencu.rd, hrdt, hconf.twentyThree, toggle_true, Disparity.flip]
    refine ⟨t, u, v, _, _, _, ht, henct.reply, hrdt, hu, hencu.reply, hrdu, hv, hencv.reply, ?_, fun hdef => ?_⟩
    · rw [hrd, hrdu, subOut_positive, subOut_negative hinv7]
      exact not_ne_self (by decide) _
    · rw [hrd, hrdt, hrdu, hdef]
      decide

/-- Settles O14: every entry of the default tables is balanced. -/
theorem disparityTracksExcess : Obligations.DisparityTracksExcess := fun a7 rd =>
  ⟨fun v => subEnc_tracks_excess (standardTables_enc6_balanced a7 v) rd,
    fun v => subEnc_tracks_excess (standardTables_enc4_balanced a7 v) rd⟩

/-- Settles O42: the command names the context, and it is none of those that leave every disparity. -/
theorem onlyEncodersMoveTheDisparity : Obligations.OnlyEncodersMoveTheDisparity := by
  intro i s t n h hmoved
  have hn : contextOf i = some n := by
    by_contra hn
    exact hmoved (by rw [leaves_ctx_other h hn])
  have hi : movesDisparity i = true := by
    by_contra hi
    exact hmoved (leaves_rd_of_not_moves h (Bool.eq_false_iff.2 hi) n)
  cases i with
  | init m =>
    cases hn
    exact .inl ⟨rfl, by rw [leaves_init h]; rfl⟩
  | enc6 m v =>
    cases hn
    exact .inr (.inl ⟨v, rfl⟩)
  | enc4 m v =>
    cases hn
    exact .inr (.inr (.inl ⟨v, rfl⟩))
  | encsym m b =>
    cases hn
    exact .inr (.inr (.inr (.inl ⟨b, rfl⟩)))
  | encode m inp =>
    cases hn
    exact .inr (.inr (.inr (.inr ⟨inp, rfl⟩)))
  | setout | decode | dec6 | dec4 | pack10 | decsym | unpack10 => cases hi

end Sys2Proof.Machine
end

section
/-! PROOF. 41_stream_packer.md: the symbol of a byte under either order, PACK10 byte by byte, and what ENCODE makes of a
whole input, of two in turn and of none (O15, O16, O17, O18, O24, O25, O26). -/

namespace Sys2Proof.Machine

/-! ### The disparity of a symbol (R140) -/

theorem toggle_eq_flip_iff {rd : Disparity} {p : Bool} : rd.toggle p = rd.flip ↔ p = true := by
  cases p with
  | true => simp
  | false => simpa using (flip_ne rd).symm

/-! ### A symbol under either order (R140, R141) -/

section order
variable {cfg : Config} (rd : Disparity) (b : Byte)

/-- The 6-bit encoder first: the 4-bit codeword is that of the disparity the 6-bit entry leaves. -/
theorem encodeSymbol_lowFirst (h : cfg.order = .lowFirst) : encodeSymbol cfg rd b =
    (joinSymbol (subOut (cfg.tables.enc4At (highOf b)) (rd.toggle (cfg.tables.enc6At (lowOf b)).togglesDisparity))
        (subOut (cfg.tables.enc6At (lowOf b)) rd),
      (rd.toggle (cfg.tables.enc6At (lowOf b)).togglesDisparity).toggle
        (cfg.tables.enc4At (highOf b)).togglesDisparity) := by
  simp only [encodeSymbol, h, subEnc]

/-- The 4-bit encoder first: the 6-bit codeword is that of the disparity the 4-bit entry leaves. -/
theorem encodeSymbol_highFirst (h : cfg.order = .highFirst) : encodeSymbol cfg rd b =
    (joinSymbol (subOut (cfg.tables.enc4At (highOf b)) rd)
        (subOut (cfg.tables.enc6At (lowOf b)) (rd.toggle (cfg.tables.enc4At (highOf b)).togglesDisparity)),
      (rd.toggle (cfg.tables.enc4At (highOf b)).togglesDisparity).toggle
        (cfg.tables.enc6At (lowOf b)).togglesDisparity) := by
  simp only [encodeSymbol, h, subEnc]

end order

/-- Of an entry that inverts, the codewords at the two disparities are complements. -/
theorem subOut_flip {w : Nat} {e : EncEntry w} (hi : e.invertOnNegative = true) (rd : Disparity) :
    subOut e rd.flip = ~~~subOut e rd := by
  cases rd <;> simp [Disparity.flip, subOut_negative hi]

/-- A toggle before an entry complements its codeword exactly where the entry inverts (R141). -/
theorem subOut_toggle {w : Nat} (e : EncEntry w) (rd : Disparity) (p : Bool) : subOut e (rd.toggle p) =
    if p = true ∧ e.invertOnNegative = true then ~~~subOut e rd else subOut e rd := by
  cases p with
  | false => simp
  | true =>
    by_cases hi : e.invertOnNegative = true
    · rw [if_pos ⟨rfl, hi⟩, toggle_true, subOut_flip hi]
    · rw [if_neg fun h => hi h.2, subOut_of_not_inverts (Bool.eq_false_iff.2 hi),
        subOut_of_not_inverts (Bool.eq_false_iff.2 hi)]

/-- The same, from the codeword after the toggle to the one before. -/
theorem subOut_untoggle {w : Nat} (e : EncEntry w) (rd : Disparity) (p : Bool) : subOut e rd =
    if p = true ∧ e.invertOnNegative = true then ~~~subOut e (rd.toggle p) else subOut e (rd.toggle p) := by
  have h := subOut_toggle e (rd.toggle p) p
  rwa [toggle_toggle, bne_self_eq_false, toggle_false] at h

theorem joinSymbol_eq_ofNat (c4 : Code4) (c6 : Code6) :
    joinSymbol c4 c6 = BitVec.ofNat 10 (c4.toNat * 64 + c6.toNat) := by
  rw [← joinSymbol_toNat, BitVec.ofNat_toNat, BitVec.setWidth_eq]

/-! ### ENCSYM, and the two encoders on the fields of its byte -/

section byte
variable {n : Nat} {s : State} (b : Byte)

theorem exec_enc6_low (hr : (s.ctx n).life = .ready) : ∃ t, exec (.enc6 n (b.toNat % 32)) s = .next t ∧
    SubEncoded .code6 n (s.config.tables.enc6At (lowOf b)) s t :=
  exec_enc6_subEncoded hr (Nat.mod_lt _ (by decide)) (by rw [lowOf_eq])

theorem exec_enc4_high (hr : (s.ctx n).life = .ready) : ∃ t, exec (.enc4 n (b.toNat / 32)) s = .next t ∧
    SubEncoded .code4 n (s.config.tables.enc4At (highOf b)) s t :=
  exec_enc4_subEncoded hr (by have := b.isLt; omega) (by rw [highOf_eq])

/-- ENCSYM answers the symbol of its byte and leaves its disparity; nothing else changes (R140). -/
theorem exec_encsym_encoded (hr : (s.ctx n).life = .ready) : ∃ t, exec (.encsym n b) s = .next t ∧
    t.reply = some (.symbol (encodeSymbol s.config (s.ctx n).rd b).1) ∧
    t.ctx n = { s.ctx n with rd := (encodeSymbol s.config (s.ctx n).rd b).2 } ∧ OnlyContext n s t :=
  ⟨_, exec_encsym hr, rfl, setRd_ctx_same s n _, onlyContext_setRd_withReply n s _ _⟩

end byte

/-- Two sub-symbol encoders run one after the other leave the disparity toggled by both. -/
theorem SubEncoded.ctx_of_two {w w' n : Nat} {form : BitVec w → Reply} {form' : BitVec w' → Reply} {e : EncEntry w}
    {e' : EncEntry w'} {s t u : State} (ht : SubEncoded form n e s t) (hu : SubEncoded form' n e' t u) :
    u.ctx n = { s.ctx n with rd := ((s.ctx n).rd.toggle e.togglesDisparity).toggle e'.togglesDisparity } := by
  rw [hu.ctx, ht.ctx]

/-! ### One symbol of the packer (R142, R143) -/

theorem nextBitOff_eq_zero_iff (o : BitVec 3) : nextBitOff o = 0 ↔ (o.toNat + 10) % 8 = 0 := by
  revert o
  decide

theorem pastSymbol_eq (c : Context) : c.pastSymbol =
    { c with
      bitOff := BitVec.ofNat 3 ((c.bitOff.toNat + 10) % 8)
      bytePos := c.bytePos + 1 + (if (c.bitOff.toNat + 10) % 8 = 0 then 1 else 0) } := by
  simp only [Context.pastSymbol, nextBytePos, nextBitOff_eq_zero_iff]
  rw [nextBitOff_eq]

theorem onlyContextAndBytes_appendSymbol (n buf : Nat) (sym : Symbol) (s : State) : OnlyContextAndBytes n
    (fun a => a = buf + (s.ctx n).bytePos ∨ a = buf + (s.ctx n).bytePos + 1) s (appendSymbol n buf sym s) where
  others _ hm := appendSymbol_ctx_other _ _ _ hm
  bytes a ha := by rw [appendSymbol_read, if_neg fun h => ha (.inl h), if_neg fun h => ha (.inr h)]
  config := rfl
  pending := rfl

/-! ### The stream of a list of symbols -/

/-- Bit `j` of the `k`-th symbol stands at bit `10 k + j` of the stream. -/
theorem symbolsBit_at {syms : List Symbol} {k j : Nat} (hk : k < syms.length) (hj : j < 10) :
    symbolsBit syms (10 * k + j) = syms[k].getLsbD j := by
  rw [symbolsBit, show (10 * k + j) / 10 = k by omega, show (10 * k + j) % 10 = j by omega,
    List.getD_eq_getElem _ _ hk]

/-- The bits of zero bytes are 0. -/
theorem streamBit_of_zeros {s : State} {buf m i : Nat} (hz : ∀ p, p < m → s.read (buf + p) = 0) (hi : i < 8 * m) :
    s.streamBit buf i = false := by
  rw [State.streamBit, hz (i / 8) (by omega)]
  exact BitVec.getLsbD_zero

theorem cursorBit_start {c : Context} (hp : c.bytePos = 0) (ho : c.bitOff = 0) : c.cursorBit = 0 := by
  rw [Context.cursorBit, hp, ho]
  rfl

/-! ### ENCODE's loop over two inputs (R146) -/

theorem encodeBytes_append_ok {n : Nat} {xs ys : List Byte} {s u : State} : encodeBytes n (xs ++ ys) s = .ok u ↔
    ∃ t, encodeBytes n xs s = .ok t ∧ encodeBytes n ys t = .ok u := by
  rw [encodeBytes_append]
  cases encodeBytes n xs s with
  | error f => exact ⟨fun h => (by cases h), fun ⟨_, h, _⟩ => (by cases h)⟩
  | ok t => exact ⟨fun h => ⟨t, rfl, h⟩, fun ⟨_, ht, h⟩ => (by cases ht; exact h)⟩

@[simp] theorem withReply_withReply (s : State) (r r' : Reply) : (s.withReply r).withReply r' = s.withReply r' := rfl

/-- The loop reads no reply, and leaves the one it found. -/
theorem encodeBytes_withReply_ok {n : Nat} {r : Reply} {xs : List Byte} {s u : State} :
    encodeBytes n xs (s.withReply r) = .ok u ↔ ∃ t, encodeBytes n xs s = .ok t ∧ u = t.withReply r := by
  rw [encodeBytes_withReply]
  cases encodeBytes n xs s with
  | ok t => simp [eq_comm]
  | error f => cases f <;> simp

/-- ENCODE's loop keeps the lifecycle mark. -/
theorem encodeBytes_life {n : Nat} {xs : List Byte} {s t : State} (h : encodeBytes n xs s = .ok t) :
    (t.ctx n).life = (s.ctx n).life :=
  (encodeBytes_keeps (n := n) (P := fun u => (u.ctx n).life = (s.ctx n).life)
    (fun u b v hu hv => by
      obtain ⟨buf, -, rfl⟩ := encodeByte_ok hv
      rw [afterByte_ctx_same]
      exact hu) xs rfl).1 t h

/-- ENCODE leaves every input that does not overlap the bound buffer (R63). -/
theorem inputBytes_of_encode {n : Nat} {inp inp' : Input} {s t : State} (h : Leaves (.encode n inp) s t)
    (ho : inputOverlaps inp' (s.ctx n).outSel = false) : t.inputBytes inp' = s.inputBytes inp' := by
  refine inputBytes_congr fun r hr a ha => leaves_read_other h fun ⟨q, hq, hqa⟩ => ?_
  exact Bool.eq_false_iff.1 ho (regionsOverlap_of_shared hr hq ha hqa)

/-- An empty input overlaps no buffer (R149). -/
theorem inputOverlaps_of_empty {s : State} {inp : Input} (h : s.inputBytes inp = []) (out : OutSel) :
    inputOverlaps inp out = false := by
  cases inp with
  | bytes bs => rfl
  | buffer base len =>
    have hlen : len = 0 := by rw [← readBytes_length s base len, ← List.length_eq_zero_iff.2 h, State.inputBytes]
    cases out with
    | unbound => rfl
    | bound buf m => exact decide_eq_false (by simp only; omega)

/-- ENCODE of a second input in the state that ENCODE of a first leaves: the loop goes on where the first stopped. -/
theorem exec_encode_then {n : Nat} {x y : Input} {s t u : State} (hr : (s.ctx n).life = .ready)
    (hx : inputOverlaps x (s.ctx n).outSel = false) (hy : inputOverlaps y (s.ctx n).outSel = false)
    (ht : encodeBytes n (s.inputBytes x) s = .ok t) : exec (.encode n y) (t.withReply .done) = .next u ↔
      ∃ v, encodeBytes n (s.inputBytes y) t = .ok v ∧ u = v.withReply .done := by
  have hready : ((t.withReply .done).ctx n).life = .ready := (encodeBytes_life ht).trans hr
  have hover : inputOverlaps y ((t.withReply .done).ctx n).outSel = false := by
    rw [withReply_ctx, (encodeBytes_outSel_and_reply ht).1, hy]
  have hin : (t.withReply .done).inputBytes y = s.inputBytes y :=
    inputBytes_of_encode (leaves_next (exec_encode hr hx ht)) hy
  constructor
  · intro h
    obtain ⟨-, -, v, hv, rfl⟩ := exec_encode_next h
    rw [hin] at hv
    obtain ⟨w, hw, rfl⟩ := encodeBytes_withReply_ok.1 hv
    exact ⟨w, hw, rfl⟩
  · rintro ⟨v, hv, rfl⟩
    have hloop : encodeBytes n ((t.withReply .done).inputBytes y) (t.withReply .done) = .ok (v.withReply .done) := by
      rw [hin, encodeBytes_withReply_ok]
      exact ⟨v, hv, rfl⟩
    rw [exec_encode hready hover hloop, withReply_withReply]

/-! ### The statements -/

/-- Settles O15, by the two runs in either order: the second encoder sees the disparity the first has left. -/
theorem encsymRunsBothEncoders : Obligations.EncsymRunsBothEncoders := by
  intro n b s hready
  obtain ⟨v, hv, hreply, hctx, hframe⟩ := exec_encsym_encoded b hready
  have hkeep : v.ctx n = { s.ctx n with rd := (v.ctx n).rd } := by rw [hctx]
  cases ho : s.config.order with
  | lowFirst =>
    obtain ⟨t, ht, hlow⟩ := exec_enc6_low b hready
    obtain ⟨u, hu, hhigh⟩ := exec_enc4_high b (hlow.life.trans hready)
    rw [hlow.frame.config] at hhigh
    refine ⟨t, u, v, _, _, hv, ?_, .inl ⟨rfl, ht, hlow.reply, hu, hhigh.reply⟩, ?_, hkeep, hframe⟩
    · rw [hreply, encodeSymbol_lowFirst _ _ ho, joinSymbol_eq_ofNat, hlow.rd]
    · rw [hctx, encodeSymbol_lowFirst _ _ ho, hlow.ctx_of_two hhigh]
  | highFirst =>
    obtain ⟨t, ht, hhigh⟩ := exec_enc4_high b hready
    obtain ⟨u, hu, hlow⟩ := exec_enc6_low b (hhigh.life.trans hready)
    rw [hhigh.frame.config] at hlow
    refine ⟨t, u, v, _, _, hv, ?_, .inr ⟨rfl, ht, hhigh.reply, hu, hlow.reply⟩, ?_, hkeep, hframe⟩
    · rw [hreply, encodeSymbol_highFirst _ _ ho, joinSymbol_eq_ofNat, hhigh.rd]
    · rw [hctx, encodeSymbol_highFirst _ _ ho, hhigh.ctx_of_two hlow]

/-- Settles O16: the net effect is one toggle, by whether the two entries differ. -/
theorem symbolFlipsOnOneToggle : Obligations.SymbolFlipsOnOneToggle := by
  intro cfg rd b
  rw [encodeSymbol_disparity]
  refine ⟨toggle_eq_flip_iff.trans bne_iff_ne, ?_⟩
  cases (cfg.tables.enc6At (lowOf b)).togglesDisparity != (cfg.tables.enc4At (highOf b)).togglesDisparity with
  | false => exact .inl rfl
  | true => exact .inr rfl

/-- Settles O17: the encoder that runs second sees the other entry's toggle. -/
theorem orderMattersWhenOneTogglesOtherInverts : Obligations.OrderMattersWhenOneTogglesOtherInverts := by
  intro t rd b lo hi e6 e4
  have hlo : lo = joinSymbol (subOut e4 (rd.toggle e6.togglesDisparity)) (subOut e6 rd) :=
    congrArg Prod.fst (encodeSymbol_lowFirst rd b rfl)
  have hhi : hi = joinSymbol (subOut e4 rd) (subOut e6 (rd.toggle e4.togglesDisparity)) :=
    congrArg Prod.fst (encodeSymbol_highFirst rd b rfl)
  rw [hlo, hhi]
  simp only [code6Of_join, code4Of_join]
  exact ⟨subOut_toggle e6 rd e4.togglesDisparity, subOut_untoggle e4 rd e6.togglesDisparity⟩

/-- Settles O18: with room PACK10 is one appended symbol. -/
theorem pack10OrsTwoBytes : Obligations.Pack10OrsTwoBytes := by
  intro n sym s buf len hready hb hroom heven
  have hframe := onlyContextAndBytes_appendSymbol n buf sym s
  refine ⟨_, exec_pack10 hready (packRoom_of_room hb hroom ((even_iff _).2 heven)), rfl, ?_, ?_, ?_,
    ⟨hframe.others, hframe.bytes, hframe.config, hframe.pending⟩⟩
  · rw [withReply_read, appendSymbol_read, if_pos rfl, packFirst_eq]
  · rw [withReply_read, appendSymbol_read, if_neg (by omega), if_pos rfl, packSecond_eq]
  · rw [withReply_ctx, appendSymbol_ctx_same, pastSymbol_eq]

/-- Settles O24, by the closed form of ENCODE's loop from stream bit 0 over zeros. -/
theorem encodeWritesItsSymbolsInOrder : Obligations.EncodeWritesItsSymbolsInOrder := by
  intro n inp s buf len hready hb hover hpos hoff hlen hzero
  have hcur := cursorBit_start hpos hoff
  have hsyms := encodeSymbols_length s.config (s.ctx n).rd (s.inputBytes inp)
  obtain ⟨t, ht, h⟩ := encodeBytes_run (s.inputBytes inp) hb (by rw [hoff]; decide) (by omega)
  obtain ⟨hctx, -, -, -, -, hbits, hbytes⟩ := h
  simp only [hcur, hpos, Nat.zero_add, Nat.zero_le, true_and, Nat.sub_zero, Nat.add_zero] at hctx hbits hbytes
  refine ⟨_, exec_encode hready hover ht, fun k j hk hj => ?_, hsyms, fun i hi hi' => ?_, fun a ha => ?_, ?_, ?_⟩
  · rw [withReply_streamBit, hbits, streamBit_of_zeros hzero (by omega), decide_eq_true (by omega),
      symbolsBit_at hk hj, Bool.false_or, Bool.true_and]
  · rw [withReply_streamBit, hbits, streamBit_of_zeros hzero hi', decide_eq_false (by omega), Bool.false_and,
      Bool.false_or]
  · exact hbytes a fun _ => ha
  · rw [withReply_ctx, hctx]
  · rw [withReply_ctx, hctx, BitVec.toNat_ofNat]
    omega

/-- Settles O25: the loop over the joined input is the loop over its parts, and the second finds its input and its
context as the first found them. -/
theorem encodeComposes : Obligations.EncodeComposes := by
  intro n x y z s u hz hx hy hover
  constructor
  · intro h
    obtain ⟨hready, -, v, hv, rfl⟩ := exec_encode_next h
    rw [hz, encodeBytes_append_ok] at hv
    obtain ⟨t, ht, hv⟩ := hv
    exact ⟨_, exec_encode hready hx ht, (exec_encode_then hready hx hy ht).2 ⟨v, hv, rfl⟩⟩
  · rintro ⟨_, hex, hey⟩
    obtain ⟨hready, -, t, ht, rfl⟩ := exec_encode_next hex
    obtain ⟨v, hv, rfl⟩ := (exec_encode_then hready hx hy ht).1 hey
    exact exec_encode hready hover (by rw [hz, encodeBytes_append_ok]; exact ⟨t, ht, hv⟩)

/-- Settles O26: the loop over no byte makes no check and no write. -/
theorem encodeOfNothing : Obligations.EncodeOfNothing := by
  intro n inp s hready hin
  exact exec_encode hready (inputOverlaps_of_empty hin _) (by rw [hin]; rfl)

end Sys2Proof.Machine
end

section
/-! PROOF. 42_subsymbol_decoder.md: what DEC6, DEC4 and DECSYM answer, that nothing else of the state changes, and that
DECSYM gives back the byte of ENCSYM (O29, O30, O31). -/

namespace Sys2Proof.Machine

/-! ### Decode table reads -/

theorem dec6At_ofNat (t : Tables) {c : Nat} (h : c < 64) : t.dec6At (BitVec.ofNat 6 c) = t.dec6[c] := by
  simp [Tables.dec6At, Nat.mod_eq_of_lt h]

theorem dec4At_ofNat (t : Tables) {c : Nat} (h : c < 16) : t.dec4At (BitVec.ofNat 4 c) = t.dec4[c] := by
  simp [Tables.dec4At, Nat.mod_eq_of_lt h]

/-! ### A reply and nothing else (R164) -/

theorem onlyReply_withReply (s : State) (r : Reply) : OnlyReply s (s.withReply r) where
  contexts _ := rfl
  bytes _ := rfl
  config := rfl
  pending := rfl

/-! ### One symbol (R162) -/

theorem joinByte_eq_ofNat (hi : High) (lo : Low) : joinByte hi lo = BitVec.ofNat 8 (hi.toNat * 32 + lo.toNat) := by
  rw [← joinByte_toNat, BitVec.ofNat_toNat, BitVec.setWidth_eq]

/-- A symbol holds the codeword of each field of its byte, each at some disparity; the order decides which (R140). -/
theorem encodeSymbol_fields (cfg : Config) (rd : Disparity) (b : Byte) : ∃ rd4 rd6,
    (encodeSymbol cfg rd b).1 =
      joinSymbol (subOut (cfg.tables.enc4At (highOf b)) rd4) (subOut (cfg.tables.enc6At (lowOf b)) rd6) := by
  cases h : cfg.order with
  | lowFirst => exact ⟨_, _, congrArg Prod.fst (encodeSymbol_lowFirst rd b h)⟩
  | highFirst => exact ⟨_, _, congrArg Prod.fst (encodeSymbol_highFirst rd b h)⟩

/-- Decoding undoes encoding at every disparity and under either order, as R88 item 6 holds at every disparity. -/
theorem decodeSymbol_encodeSymbol {cfg : Config} (h : Tables.RoundTrip cfg.tables) (rd : Disparity) (b : Byte) :
    decodeSymbol cfg.tables (encodeSymbol cfg rd b).1 = some b := by
  obtain ⟨rd4, rd6, hsym⟩ := encodeSymbol_fields cfg rd b
  rw [hsym, decodeSymbol_join, h.low, h.high]
  exact congrArg some (joinByte_split b)

/-! ### The statements -/

/-- Settles O29: an operand in range is the index of its entry. -/
theorem subSymbolDecodersLookUp : Obligations.SubSymbolDecodersLookUp :=
  ⟨fun _ s h => ⟨_, exec_dec6 h, by rw [withReply_reply, dec6At_ofNat _ h], onlyReply_withReply s _⟩,
    fun _ s h => ⟨_, exec_dec4 h, by rw [withReply_reply, dec4At_ofNat _ h], onlyReply_withReply s _⟩⟩

/-- Settles O30, by whether each of the two entries is a value. -/
theorem decsymJoinsBothValues : Obligations.DecsymJoinsBothValues := by
  intro sym s
  refine ⟨_, exec_decsym, onlyReply_withReply s _, ?_⟩
  rw [withReply_reply, decodeSymbol, code6Of_eq, code4Of_eq]
  cases s.config.tables.dec6At (BitVec.ofNat 6 (sym.toNat % 64)) with
  | none => rfl
  | some lo =>
    cases s.config.tables.dec4At (BitVec.ofNat 4 (sym.toNat / 64)) with
    | none => rfl
    | some hi => simp only [joinByte_eq_ofNat]

/-- Settles O31: ENCSYM keeps the tables, so DECSYM reads those the symbol was made with. -/
theorem decsymInvertsEncsym : Obligations.DecsymInvertsEncsym := by
  intro n b s t htables hsym
  obtain ⟨-, rfl⟩ := exec_encsym_next hsym
  refine ⟨_, _, withReply_reply _ _, exec_decsym, ?_⟩
  rw [withReply_reply, withReply_config, setRd_config, decodeSymbol_encodeSymbol htables]

end Sys2Proof.Machine
end

section
/-! PROOF. 43_stream_unpacker.md: the symbols UNPACK10 and DECODE take from the stream, the bytes DECODE stores, and the
checks it makes before them (O34, O35, O37, O38, O39, O40). -/

namespace Sys2Proof.Machine

/-! ### The checks of UNPACK10 and DECODE -/

theorem exec_unpack10_short {inp : Input} {k : Nat} {s : State} (h : 8 * (s.inputBytes inp).length < 10 * k + 10) :
    exec (.unpack10 inp k) s = .fault (.contractViolation .inputTooShort s) := by
  rw [exec, execUnpack10, if_pos h, raise]

section checks
variable {n l : Nat} {inp : Input} {s : State}

theorem exec_decode_uninit (hu : (s.ctx n).life = .uninit) :
    exec (.decode n inp l) s = .fault (.contractViolation .notInitialized s) :=
  uninitContextFaults _ n s rfl nofun hu

theorem exec_decode_overlap (hr : (s.ctx n).life = .ready) (ho : inputOverlaps inp (s.ctx n).outSel = true) :
    exec (.decode n inp l) s = .refused (.inputOverlapsOutput n) := exec_refused_iff.2 (ownRefusal_decode hr ho)

/-- The check of `bitLength` comes before the one that looks at the input's length (R208). -/
theorem exec_decode_not_multiple (hr : (s.ctx n).life = .ready) (ho : inputOverlaps inp (s.ctx n).outSel = false)
    (h10 : l % 10 ≠ 0) : exec (.decode n inp l) s = .fault (.contractViolation .bitLengthNotMultipleOf10 s) := by
  rw [exec, execDecode, whenReady_ready hr, if_neg (by rw [ho]; decide), if_pos h10, raise]

theorem exec_decode_short (hr : (s.ctx n).life = .ready) (ho : inputOverlaps inp (s.ctx n).outSel = false)
    (h10 : l % 10 = 0) (hl : 8 * (s.inputBytes inp).length < l) :
    exec (.decode n inp l) s = .fault (.contractViolation .inputTooShort s) := by
  rw [exec, execDecode, whenReady_ready hr, if_neg (by rw [ho]; decide), if_neg (not_not.2 h10), if_pos hl, raise]

/-- DECODE ends normally only past all its checks, through its loop. -/
theorem exec_decode_next {t : State} (h : exec (.decode n inp l) s = .next t) :
    decodeSyms n (unpackSymbols (s.inputBytes inp) (l / 10)) s = .next t := by
  cases hr : (s.ctx n).life with
  | uninit =>
    rw [exec_decode_uninit hr] at h
    cases h
  | ready =>
    cases ho : inputOverlaps inp (s.ctx n).outSel with
    | true =>
      rw [exec_decode_overlap hr ho] at h
      cases h
    | false =>
      by_cases h10 : l % 10 = 0
      · by_cases hl : l ≤ 8 * (s.inputBytes inp).length
        · exact (exec_decode hr ho h10 hl).symm.trans h
        · rw [exec_decode_short hr ho h10 (Nat.lt_of_not_le hl)] at h
          cases h
      · rw [exec_decode_not_multiple hr ho h10] at h
        cases h

end checks

/-! ### The symbols of an input (R179) -/

theorem unpackSymbols_length (bs : List Byte) (m : Nat) : (unpackSymbols bs m).length = m := by
  rw [unpackSymbols, List.length_map, List.length_range]

/-- The first `m` symbols depend on the first `10 m` stream bits and on nothing else (R181). -/
theorem unpackSymbols_congr {as bs : List Byte} {m : Nat} (h : ∀ i, i < 10 * m → streamBit as i = streamBit bs i) :
    unpackSymbols as m = unpackSymbols bs m := by
  refine List.map_congr_left fun k hk => symbol_ext fun j hj => ?_
  have hk : k < m := List.mem_range.1 hk
  rw [unpackSymbol_bit as k hj, unpackSymbol_bit bs k hj, h _ (by omega)]

/-! ### The bytes DECODE stores -/

/-- Where DECODE's loop ends normally it has stored the bytes of the symbols before the first invalid one (R183). -/
theorem decodeSyms_next {n : Nat} {syms : List Symbol} {s t : State} (h : decodeSyms n syms s = .next t) :
    Decoded n (decodedBytes s.config.tables syms) s t := by
  induction syms generalizing s with
  | nil =>
    cases h
    exact decoded_nil n s .ok
  | cons sym syms ih =>
    simp only [decodeSyms, decodedBytes] at h ⊢
    cases hd : decodeSymbol s.config.tables sym with
    | none =>
      rw [hd] at h
      cases h
      exact decoded_nil n s .codeViolation
    | some b =>
      simp only [hd] at h ⊢
      cases hs : storeDecoded n b s with
      | error f =>
        rw [hs] at h
        cases h
      | ok v =>
        rw [hs] at h
        obtain ⟨buf, len, hb, -, rfl⟩ := storeDecoded_ok hs
        exact decoded_cons hb (ih h)

/-- Only the addresses of the bytes it stored, in the bound buffer from the byte position on, can change. -/
theorem Decoded.read_frame {n a : Nat} {out : List Byte} {s t : State} (h : Decoded n out s t)
    (ha : ¬ ∃ buf len, (s.ctx n).outSel = .bound buf len ∧ buf + (s.ctx n).bytePos ≤ a ∧
      a < buf + (s.ctx n).bytePos + out.length) : t.read a = s.read a := by
  cases hb : (s.ctx n).outSel with
  | unbound => rw [State.read, h.unbound hb, State.read]
  | bound buf len => exact h.read_other hb fun hin => ha ⟨buf, len, hb, hin⟩

/-- What a second loop stores stands right after what the first has stored (R178). -/
theorem Decoded.append {n : Nat} {xs ys : List Byte} {s t u : State} (h : Decoded n xs s t) (h' : Decoded n ys t u) :
    Decoded n (xs ++ ys) s u := by
  have hsel : (t.ctx n).outSel = (s.ctx n).outSel := by rw [h.ctx]
  have hpos : (t.ctx n).bytePos = (s.ctx n).bytePos + xs.length := by rw [h.ctx]
  refine ⟨?_, fun m hm => (h'.others m hm).trans (h.others m hm), h'.config.trans h.config,
    h'.pending.trans h.pending, fun buf len hb x => ?_, fun hu => (h'.unbound (hsel.trans hu)).trans (h.unbound hu)⟩
  · rw [h'.ctx, hpos, h.ctx, List.length_append, Nat.add_assoc]
  · rw [h'.stored buf len (hsel.trans hb), h.stored buf len hb, hpos, List.length_append]
    by_cases hx : x < buf + (s.ctx n).bytePos + xs.length
    · rw [if_neg (by omega)]
      refine ite_congr (propext (by omega)) (fun hin => ?_) fun _ => rfl
      rw [List.getD_append _ _ _ _ (by omega)]
    · rw [if_neg (c := _ ∧ x < buf + (s.ctx n).bytePos + xs.length) (by omega)]
      refine ite_congr (propext (by omega)) (fun hin => ?_) fun _ => rfl
      rw [List.getD_append_right _ _ _ _ (by omega), Nat.sub_sub, ← Nat.add_assoc]

/-! ### The statements -/

/-- Settles O35, by the closed form of DECODE's loop where the bytes it stores fit. -/
theorem decodeStoresTheValidPrefix : Obligations.DecodeStoresTheValidPrefix := by
  intro n inp l s out hready hover h10 hl hout hfit
  subst hout
  obtain ⟨t, ht, h, hreply⟩ := decodeSyms_run _ hfit
  rw [unpackSymbols_length] at hreply
  exact ⟨t, (exec_decode hready hover h10 hl).trans ht, hreply, h.ctx, fun buf len hb k hk => h.read_stored hb hk,
    h.others, fun a ha => h.read_frame ha, h.config, h.pending⟩

/-- Settles O37: each DECODE stores the bytes before the first invalid symbol of its own input, the second from where
the first has stopped. -/
theorem decodesStoreOneAfterTheOther : Obligations.DecodesStoreOneAfterTheOther := by
  intro n a b l m s t u buf len out hbound ha hb hout
  have hfirst := decodeSyms_next (exec_decode_next ha)
  have hsecond := decodeSyms_next (exec_decode_next hb)
  rw [hfirst.config] at hsecond
  have hboth := hfirst.append hsecond
  rw [← hout] at hboth
  exact ⟨by rw [hboth.ctx], fun k hk => hboth.read_stored hbound hk⟩

/-- Settles O34: where the input has the bits, the answer is the closed form of R179. -/
theorem unpack10ReadsTenStreamBits : Obligations.Unpack10ReadsTenStreamBits :=
  fun inp k s =>
    ⟨fun h => ⟨_, _, exec_unpack10 h, rfl, fun _ hj => unpackSymbol_bit (s.inputBytes inp) k hj,
      onlyReply_withReply s _⟩, exec_unpack10_short⟩

/-- Settles O40: the checks tell the two inputs apart by nothing, and the loop runs over the same symbols. -/
theorem decodeIgnoresTheTail : Obligations.DecodeIgnoresTheTail := by
  intro n l a b s ha hb hover hbits
  cases hr : (s.ctx n).life with
  | uninit => rw [exec_decode_uninit hr, exec_decode_uninit hr]
  | ready =>
    cases ho : inputOverlaps b (s.ctx n).outSel with
    | true => rw [exec_decode_overlap hr (hover.trans ho), exec_decode_overlap hr ho]
    | false =>
      by_cases h10 : l % 10 = 0
      · have hsyms := unpackSymbols_congr (m := l / 10) fun i hi => hbits i (by omega)
        rw [exec_decode hr (hover.trans ho) h10 ha, exec_decode hr ho h10 hb, hsyms]
      · rw [exec_decode_not_multiple hr (hover.trans ho) h10, exec_decode_not_multiple hr ho h10]

/-- Settles O38, by the first check that fails. -/
theorem decodeChecksItsBitLength : Obligations.DecodeChecksItsBitLength :=
  fun _ _ _ _ hready hover => ⟨exec_decode_not_multiple hready hover, exec_decode_short hready hover⟩

/-- Settles O39: the loop over no symbol makes no check and no store. -/
theorem decodeOfNothing : Obligations.DecodeOfNothing :=
  fun _ _ _ hready hover => exec_decode hready hover (Nat.zero_mod 10) (Nat.zero_le _)

end Sys2Proof.Machine
end

section
/-! PROOF. 44_context_ops.md: INIT and SETOUT each write their own context and answer, and change nothing else
(O7, O8). -/

namespace Sys2Proof.Machine

/-! ### A context written and a reply given (R192) -/

theorem onlyContext_setCtx_withReply (n : Nat) (s : State) (c : Context) (r : Reply) :
    OnlyContext n s ((s.setCtx n c).withReply r) where
  others _ hm := setCtx_ctx_other s c hm
  bytes _ := rfl
  config := rfl
  pending := rfl

/-- The context SETOUT writes, field by field: of a ready one only the disparity is left to depend on (R191, R192). -/
theorem rewind_of_ready {c : Context} (hr : c.life = .ready) (buf len : Nat) :
    { c with outSel := .bound buf len, bytePos := 0, bitOff := 0 } =
      ({ life := .ready, rd := c.rd, outSel := .bound buf len, bytePos := 0, bitOff := 0 } : Context) := by
  rw [hr]

/-! ### The statements -/

/-- Settles O7: INIT is one write of its context, which no state of it can prevent. -/
theorem initGivesTheStartState : Obligations.InitGivesTheStartState :=
  fun n s => ⟨_, exec_init, rfl, setCtx_ctx_same s n Context.afterInit, onlyContext_setCtx_withReply n s _ _⟩

/-- Settles O8: on a ready context SETOUT is one write of it, with the disparity it held. -/
theorem setoutBindsAndRewinds : Obligations.SetoutBindsAndRewinds :=
  fun n buf len s hr => ⟨_, exec_setout hr, rfl, (setCtx_ctx_same s n _).trans (rewind_of_ready hr buf len),
    onlyContext_setCtx_withReply n s _ _⟩

end Sys2Proof.Machine
end

section
/-! PROOF. 60_exceptions.md: the ways a command can end, the length check of the binding layer against DECODE's, and
what follows the first of several commands issued at once (O46, O47, O51, O52). -/

namespace Sys2Proof.Machine

/-! ### Faults inside the loops -/

/-- ENCODE's loop fails only by the packer's checks, in some state it has come to (R60). -/
theorem encodeBytes_error {n : Nat} {bs : List Byte} {s : State} {f : Fault} (h : encodeBytes n bs s = .error f) :
    ∃ t, packRoom n t = .error f := by
  induction bs generalizing s with
  | nil => cases h
  | cons b bs ih =>
    rw [encodeBytes] at h
    cases hb : encodeByte n b s with
    | error g =>
      rw [hb] at h
      cases h
      exact ⟨s, encodeByte_error hb⟩
    | ok t =>
      rw [hb] at h
      exact ih h

/-- DECODE's loop ends normally or where a store has no buffer or no room (R60, R209). -/
theorem decodeSyms_ends (n : Nat) (syms : List Symbol) (s : State) : (∃ t, decodeSyms n syms s = .next t) ∨
    ∃ k t, (k = .noOutput ∨ k = .outputOverrun) ∧ decodeSyms n syms s = .fault (.contractViolation k t) := by
  induction syms generalizing s with
  | nil => exact .inl ⟨_, rfl⟩
  | cons sym syms ih =>
    simp only [decodeSyms]
    cases decodeSymbol s.config.tables sym with
    | none => exact .inl ⟨_, rfl⟩
    | some b =>
      simp only
      cases hb : storeDecoded n b s with
      | error f =>
        obtain rfl | rfl := storeDecoded_error hb
        · exact .inr ⟨_, s, .inl rfl, rfl⟩
        · exact .inr ⟨_, s, .inr rfl, rfl⟩
      | ok t => exact ih t

/-! ### The ways a command can end -/

/-- Command `i` is an ENCODE or a DECODE of `inp` on context `n`. -/
abbrev Streams (n : Nat) (inp : Input) (i : Instr) : Prop := i = .encode n inp ∨ ∃ l, i = .decode n inp l

/-- The ways command `i` can end from state `s`, whether or not `s` meets the invariant: normally, in a violation of its
row of R206, refused for an input over the bound buffer, or at an odd bit offset. -/
inductive EndsIn (i : Instr) (s : State) : Result → Prop where
  | done (t : State) (reply : t.reply = some .codeViolation → ∃ n inp l, i = .decode n inp l) : EndsIn i s (.next t)
  | violation (k : ContractViolation) (t : State) (row : k ∈ violationsOf i)
    (left : t = s ∨ (k = .noOutput ∨ k = .outputOverrun) ∧ ∃ n inp, Streams n inp i) :
    EndsIn i s (.fault (.contractViolation k t))
  | refused (n : Nat) (inp : Input) (command : Streams n inp i) (overlap : inputOverlaps inp (s.ctx n).outSel = true) :
    EndsIn i s (.refused (.inputOverlapsOutput n))
  | odd (n : Nat) (t : State) (offset : (t.ctx n).bitOff.getLsbD 0 = true) : EndsIn i s (.fault (.oddBitOffset t))

section ends
variable {i : Instr} {s t : State} {n : Nat}

theorem EndsIn.answer {r : Reply} (h : r ≠ .codeViolation) : EndsIn i s (.next (t.withReply r)) :=
  .done _ fun hr => absurd (Option.some.inj hr) h

/-- A violation of the row that leaves the state untouched (R205). -/
theorem EndsIn.untouched {k : ContractViolation} (h : k ∈ violationsOf i) :
    EndsIn i s (.fault (.contractViolation k s)) := .violation k s h (.inl rfl)

/-- A command that names a context, but INIT, is left to look at on a ready one (R25). -/
theorem EndsIn.of_ready (hi : contextOf i = some n) (hne : i ≠ .init n)
    (h : (s.ctx n).life = .ready → EndsIn i s (exec i s)) : EndsIn i s (exec i s) := by
  cases hl : (s.ctx n).life with
  | ready => exact h hl
  | uninit =>
    rw [uninitContextFaults i n s hi hne hl]
    refine .untouched ?_
    cases i with
    | init m =>
      cases hi
      exact absurd rfl hne
    | dec6 | dec4 | decsym | unpack10 => cases hi
    | setout | encode | decode | enc6 | enc4 | encsym | pack10 => exact List.mem_cons_self

/-- The packer's checks, failed in the state the command began in or inside ENCODE's loop (R60). -/
theorem EndsIn.of_packRoom_error {f : Fault} (h : packRoom n t = .error f)
    (hno : .noOutput ∈ violationsOf i) (hover : .outputOverrun ∈ violationsOf i)
    (ht : t = s ∨ ∃ m inp, Streams m inp i) : EndsIn i s (.fault f) := by
  obtain ⟨rfl, -⟩ | ⟨_, _, rfl, -⟩ | ⟨rfl, hodd⟩ := packRoom_error h
  · exact .violation _ t hno (ht.imp_right fun hi => ⟨.inl rfl, hi⟩)
  · exact .violation _ t hover (ht.imp_right fun hi => ⟨.inr rfl, hi⟩)
  · exact .odd n t hodd

end ends

theorem encode_ends (n : Nat) (inp : Input) (s : State) : EndsIn (.encode n inp) s (exec (.encode n inp) s) := by
  refine .of_ready rfl nofun fun hr => ?_
  cases ho : inputOverlaps inp (s.ctx n).outSel with
  | true =>
    rw [exec_refused_iff.2 (ownRefusal_encode hr ho)]
    exact .refused n inp (.inl rfl) ho
  | false =>
    cases hb : encodeBytes n (s.inputBytes inp) s with
    | error f =>
      rw [exec_encode_error hr ho hb]
      obtain ⟨t, ht⟩ := encodeBytes_error hb
      exact .of_packRoom_error ht (by simp [violationsOf]) (by simp [violationsOf]) (.inr ⟨n, inp, .inl rfl⟩)
    | ok t =>
      rw [exec_encode hr ho hb]
      exact .answer nofun

theorem decode_ends (n : Nat) (inp : Input) (l : Nat) (s : State) :
    EndsIn (.decode n inp l) s (exec (.decode n inp l) s) := by
  refine .of_ready rfl nofun fun hr => ?_
  cases ho : inputOverlaps inp (s.ctx n).outSel with
  | true =>
    rw [exec_decode_overlap hr ho]
    exact .refused n inp (.inr ⟨l, rfl⟩) ho
  | false =>
    by_cases h10 : l % 10 = 0
    · by_cases hl : l ≤ 8 * (s.inputBytes inp).length
      · rw [exec_decode hr ho h10 hl]
        obtain ⟨t, ht⟩ | ⟨k, t, hk, ht⟩ := decodeSyms_ends n (unpackSymbols (s.inputBytes inp) (l / 10)) s
        · rw [ht]
          exact .done t fun _ => ⟨n, inp, l, rfl⟩
        · rw [ht]
          refine .violation k t ?_ (.inr ⟨hk, n, inp, .inr ⟨l, rfl⟩⟩)
          obtain rfl | rfl := hk <;> simp [violationsOf]
      · rw [exec_decode_short hr ho h10 (Nat.lt_of_not_le hl)]
        exact .untouched (by simp [violationsOf])
    · rw [exec_decode_not_multiple hr ho h10]
      exact .untouched (by simp [violationsOf])

/-- Every command ends in one of these ways, in every state. -/
theorem exec_ends (i : Instr) (s : State) : EndsIn i s (exec i s) := by
  cases i with
  | init n => exact .answer nofun
  | decsym sym => exact .answer nofun
  | encode n inp => exact encode_ends n inp s
  | decode n inp l => exact decode_ends n inp l s
  | setout n buf len =>
    refine .of_ready rfl nofun fun hr => ?_
    rw [exec_setout hr]
    exact .answer nofun
  | encsym n b =>
    refine .of_ready rfl nofun fun hr => ?_
    rw [exec_encsym hr]
    exact .answer nofun
  | enc6 n v =>
    refine .of_ready rfl nofun fun hr => ?_
    by_cases hv : v < 32
    · rw [exec_enc6 hr hv]
      exact .answer nofun
    · rw [exec_enc6_out_of_range hr (by omega)]
      exact .untouched (by simp [violationsOf])
  | enc4 n v =>
    refine .of_ready rfl nofun fun hr => ?_
    by_cases hv : v < 8
    · rw [exec_enc4 hr hv]
      exact .answer nofun
    · rw [exec_enc4_out_of_range hr (by omega)]
      exact .untouched (by simp [violationsOf])
  | dec6 c =>
    by_cases hc : c < 64
    · rw [exec_dec6 hc]
      exact .answer nofun
    · rw [exec_dec6_out_of_range (by omega)]
      exact .untouched (by simp [violationsOf])
  | dec4 c =>
    by_cases hc : c < 16
    · rw [exec_dec4 hc]
      exact .answer nofun
    · rw [exec_dec4_out_of_range (by omega)]
      exact .untouched (by simp [violationsOf])
  | unpack10 inp k =>
    by_cases hk : 10 * k + 10 ≤ 8 * (s.inputBytes inp).length
    · rw [exec_unpack10 hk]
      exact .answer nofun
    · rw [exec_unpack10_short (Nat.lt_of_not_le hk)]
      exact .untouched (by simp [violationsOf])
  | pack10 n sym =>
    refine .of_ready rfl nofun fun hr => ?_
    cases hp : packRoom n s with
    | error f =>
      rw [exec_pack10_error hr hp]
      exact .of_packRoom_error hp (by simp [violationsOf]) (by simp [violationsOf]) (.inl rfl)
    | ok buf =>
      rw [exec_pack10 hr hp]
      exact .answer nofun

/-! ### The boundary to the binding layer (R204) -/

/-- Past the checks before it, DECODE is `InputTooShort` exactly where the input has fewer bits (R61). -/
theorem exec_decode_short_iff {n l : Nat} {inp : Input} {s : State} (hr : (s.ctx n).life = .ready)
    (ho : inputOverlaps inp (s.ctx n).outSel = false) (h10 : l % 10 = 0) :
    exec (.decode n inp l) s = .fault (.contractViolation .inputTooShort s) ↔ 8 * (s.inputBytes inp).length < l := by
  refine ⟨fun h => Nat.lt_of_not_le fun hl => ?_, exec_decode_short hr ho h10⟩
  rw [exec_decode hr ho h10 hl] at h
  obtain ⟨t, ht⟩ | ⟨k, t, hk, ht⟩ := decodeSyms_ends n (unpackSymbols (s.inputBytes inp) (l / 10)) s
  · cases ht.symm.trans h
  · cases ht.symm.trans h
    obtain hk | hk := hk <;> cases hk

theorem bindingTruncates_iff {m l : Nat} : bindingTruncates m l = true ↔ m < l / 8 := decide_eq_true_iff

/-! ### What follows the first of several commands -/

/-- Where a step serves the first of several commands, all decode, no two clash and none of the others is refused by
itself. -/
theorem step_issue_next {s t : State} {c : Command} {also : List Command} {rest : List Request}
    (hp : s.pending = .issue c also :: rest) (h : step s = .next t) :
    ∃ i js, decodeAll also = .ok js ∧ (i :: js).Pairwise (fun a b => clash s a b = none) ∧
      (∀ j ∈ js, ownRefusal s j = none) ∧ exec i (s.withPending (requeue also rest)) = .next t := by
  cases hall : decodeAll (c :: also) with
  | error e =>
    cases e with
    | reservedCode op => cases (step_issue_reserved hp hall).symm.trans h
  | ok is =>
    obtain ⟨i, js, -, hjs, rfl⟩ := decodeAll_cons hall
    rw [step_issue hp hall] at h
    cases href : issueRefusal s i js with
    | some r =>
      rw [href] at h
      cases h
    | none =>
      rw [href] at h
      obtain ⟨hclash, hown⟩ := issueRefusal_eq_none.1 href
      exact ⟨i, js, hjs, hclash, hown, h⟩

/-- Commands of which no two clash and none is refused by itself are not refused. -/
theorem step_issue_not_refused {s : State} {c : Command} {also : List Command} {rest : List Request} {is : List Instr}
    (hp : s.pending = .issue c also :: rest) (hd : decodeAll (c :: also) = .ok is)
    (hclash : is.Pairwise fun a b => clash s a b = none) (hown : ∀ i ∈ is, ownRefusal s i = none) (r : Refusal) :
    step s ≠ .refused r := by
  obtain ⟨i, js, -, -, rfl⟩ := decodeAll_cons hd
  obtain ⟨hi, hjs⟩ := List.forall_mem_cons.1 hown
  rw [step_issue_run hp hd hclash hjs, ne_eq, exec_refused_iff, ownRefusal_congr fun _ _ => withPending_ctx .., hi]
  nofun

/-! ### The statements -/

/-- Settles O46: a violation that leaves another state is `NoOutput` or `OutputOverrun` inside a loop. -/
theorem earlyViolationsTouchNothing : Obligations.EarlyViolationsTouchNothing := by
  intro i s t k h hearly
  have hends := exec_ends i s
  rw [h] at hends
  cases hends with
  | violation _ _ _ hleft =>
    obtain rfl | ⟨hk, n, inp, hi⟩ := hleft
    · rfl
    · obtain ⟨hno, hover⟩ | ⟨hencode, hdecode⟩ := hearly
      · exact absurd hk (not_or.2 ⟨hno, hover⟩)
      · obtain hi | ⟨l, hi⟩ := hi
        · exact absurd hi (hencode n inp)
        · exact absurd hi (hdecode n inp l)

/-- Settles O47: of the ways to end, an odd bit offset cannot come about under the invariant. -/
theorem outcomesPerCommand : Obligations.OutcomesPerCommand := by
  intro i s hinv
  have hends := exec_ends i s
  generalize ho : exec i s = o at hends ⊢
  cases hends with
  | done t hreply => exact .inl ⟨t, rfl, hreply⟩
  | violation k t hrow => exact .inr (.inl ⟨k, t, hrow, rfl⟩)
  | refused n inp hi hover => exact .inr (.inr ⟨n, inp, hi, hover, rfl⟩)
  | odd n t hodd =>
    have heven := ((hinv.leaves (leaves_fault ho)).ctx n).even
    cases heven.symm.trans hodd

/-- Settles O52: the command that has run leaves the contexts the others name, on which alone it depends whether they
are refused. -/
theorem commandsAcceptedTogetherAreServed : Obligations.CommandsAcceptedTogetherAreServed := by
  intro s t c d ds rest hp h
  obtain ⟨i, js, hjs, hclash, hown, hi⟩ := step_issue_next hp h
  obtain ⟨hfirst, hothers⟩ := List.pairwise_cons.1 hclash
  have hctx : ∀ j ∈ js, ∀ n, contextOf j = some n → t.ctx n = s.ctx n := fun j hj n hn =>
    (leaves_ctx_other (leaves_next hi) fun hin => (clash_none (hfirst j hj)).1 n hin hn).trans (withPending_ctx ..)
  have hpending : t.pending = .issue d ds :: rest := leaves_pending (leaves_next hi)
  have hclash' : js.Pairwise fun a b => clash t a b = none := hothers.imp_of_mem fun ha hb hab =>
    (clash_congr (hctx _ ha) (hctx _ hb)).trans hab
  have hown' : ∀ j ∈ js, ownRefusal t j = none := fun j hj => (ownRefusal_congr (hctx j hj)).trans (hown j hj)
  exact ⟨hpending, step_issue_not_refused hpending hjs hclash' hown'⟩

/-- Settles O51: one check compares bytes with `bitLength / 8` rounded down, the other bits with `bitLength`. -/
theorem bindingCheckUnderCounts : Obligations.BindingCheckUnderCounts := by
  refine ⟨by decide, fun n inp l s hr ho h10 => ?_⟩
  intro m short
  have hshort : short ↔ 8 * m < l := exec_decode_short_iff hr ho h10
  rw [← Bool.not_eq_true, bindingTruncates_iff, hshort]
  refine ⟨?_, ?_, ?_, ?_, ?_⟩ <;> omega

end Sys2Proof.Machine
end

section
/-! PROOF. 70_reset_and_hazards.md: the state after reset, and the round trip through memory from an encoder's context to
a decoder's (O41, O48). -/

namespace Sys2Proof.Machine

/-! ### The state after reset (R230) -/

theorem Context.ok_created : Context.Ok Context.created :=
  ⟨fun _ => rfl, by decide, fun _ => ⟨rfl, rfl⟩, fun _ _ h => (by cases h)⟩

/-- Context 0 is as INIT leaves it, every other as the environment creates it. -/
theorem reset_ctx (n : Nat) : State.reset.ctx n = if n = 0 then Context.afterInit else Context.created := rfl

theorem State.Inv.reset : State.reset.Inv := by
  obtain ⟨hmem, hctxs⟩ := reset_wf
  refine ⟨hmem, hctxs, fun n => ?_⟩
  rw [reset_ctx]
  split
  · exact .afterInit
  · exact Context.ok_created

/-! ### A run of memory read as a list -/

/-- The stream bits of a run of memory are those of the bytes read from it (R53). -/
theorem streamBit_readBytes {s : State} {base len i : Nat} (h : i < 8 * len) :
    streamBit (s.readBytes base len) i = s.streamBit base i := by
  rw [streamBit, inputByte, readBytes_getD s base (by omega), State.streamBit]

/-- A run of memory that holds each byte of a list reads as the list. -/
theorem readBytes_eq_of_reads {s : State} {a : Nat} {xs : List Byte}
    (h : ∀ k (hk : k < xs.length), s.read (a + k) = xs[k]) : s.readBytes a xs.length = xs :=
  List.ext_getElem (readBytes_length s a xs.length) fun k hk hk' => by
    rw [← List.getD_eq_getElem _ 0 hk, readBytes_getD s a hk', h k hk']

/-! ### The symbols on the way (R234) -/

/-- An input whose stream holds the bits of a list of symbols unpacks to the list (R179). -/
theorem unpackSymbols_eq_of_bits {bs : List Byte} {syms : List Symbol}
    (h : ∀ k j (hk : k < syms.length), j < 10 → streamBit bs (10 * k + j) = syms[k].getLsbD j) :
    unpackSymbols bs syms.length = syms :=
  List.ext_getElem (unpackSymbols_length bs syms.length) fun k _ hk => by
    simp only [unpackSymbols, List.getElem_map, List.getElem_range]
    exact symbol_ext fun j hj => by rw [unpackSymbol_bit bs k hj, h k j hk hj]

/-- The symbols of a list of bytes are all valid and decode to the list. -/
theorem decodedBytes_encodeSymbols {cfg : Config} (h : Tables.RoundTrip cfg.tables) (rd : Disparity) (xs : List Byte) :
    decodedBytes cfg.tables (encodeSymbols cfg rd xs) = xs := by
  induction xs generalizing rd with
  | nil => rfl
  | cons x xs ih => simp only [encodeSymbols, decodedBytes, decodeSymbol_encodeSymbol h, ih]

/-- ENCODE from cursor (0, 0) on a zeroed buffer leaves there a stream that unpacks to the symbols of its input. -/
theorem exec_encode_unpacks {n buf len m : Nat} {inp : Input} {s : State} (hready : (s.ctx n).life = .ready)
    (hb : (s.ctx n).outSel = .bound buf len) (hover : inputOverlaps inp (s.ctx n).outSel = false)
    (hpos : (s.ctx n).bytePos = 0) (hoff : (s.ctx n).bitOff = 0) (hm : (10 * (s.inputBytes inp).length + 7) / 8 = m)
    (hlen : m ≤ len) (hzero : ∀ p, p < m → s.read (buf + p) = 0) :
    ∃ t, exec (.encode n inp) s = .next t ∧
      unpackSymbols (t.inputBytes (.buffer buf m)) (s.inputBytes inp).length =
        encodeSymbols s.config (s.ctx n).rd (s.inputBytes inp) := by
  subst hm
  obtain ⟨t, ht, hbits, hcount, -⟩ :=
    encodeWritesItsSymbolsInOrder n inp s buf len hready hb hover hpos hoff hlen hzero
  refine ⟨t, ht, ?_⟩
  rw [← hcount]
  refine unpackSymbols_eq_of_bits fun k j hk hj => ?_
  rw [State.inputBytes, streamBit_readBytes (by omega), hbits k j hk hj]

/-! ### The statements -/

/-- Settles O48: memory lists nothing, and a context is as INIT leaves it or as it was created. -/
theorem resetMeetsTheInvariant : Obligations.ResetMeetsTheInvariant := ⟨.reset, reset_ctx 0⟩

/-- Settles O41: the encoder's buffer unpacks to the symbols of S, all of them valid, and the decoder's context and the
tables are as they were. -/
theorem decodeOfEncodeGivesTheBytesBack : Obligations.DecodeOfEncodeGivesTheBytesBack := by
  intro e d ebuf elen dbuf dlen inp xs s hne htables hin hover hready hb hpos hoff hlen hzero hreadyd hbd hposd hroom
    hapart
  subst hin
  obtain ⟨t, ht, hsyms⟩ := exec_encode_unpacks hready hb hover hpos hoff rfl hlen hzero
  have hctx : t.ctx d = s.ctx d := leaves_ctx_other (leaves_next ht) fun h => hne (Option.some.inj h)
  have hconfig : t.config = s.config := leaves_config (leaves_next ht)
  have hout : s.inputBytes inp = decodedBytes t.config.tables
      (unpackSymbols (t.inputBytes (.buffer ebuf ((10 * (s.inputBytes inp).length + 7) / 8)))
        (10 * (s.inputBytes inp).length / 10)) := by
    rw [Nat.mul_div_cancel_left _ (by decide), hsyms, hconfig, decodedBytes_encodeSymbols htables]
  obtain ⟨u, hu, hreply, -, hstored, -⟩ := decodeStoresTheValidPrefix d _ _ t _ (by rw [hctx, hreadyd])
    (by rw [hctx, hbd, hapart]) (Nat.mul_mod_right 10 _) (by rw [State.inputBytes, readBytes_length]; omega) hout
    (.inr ⟨dbuf, dlen, by rw [hctx, hbd], by rw [hctx, hposd]; omega⟩)
  refine ⟨t, u, ht, hu, ?_, readBytes_eq_of_reads fun k hk => ?_⟩
  · rw [hreply, if_pos (by omega)]
  · simpa only [hctx, hposd, Nat.add_zero] using hstored dbuf dlen (by rw [hctx, hbd]) k hk

end Sys2Proof.Machine
end
